-- ==== Sys2Proof/Word.lean ====
section
/-! DEFINITION. The word and byte types and their plainest views (spec/00_scope.md R9, R10). -/

namespace Sys2Proof

/-- `Word32` of R10: a 32-bit pattern. -/
abbrev Word := BitVec 32

/-- One byte of the loader's input and of the memory image (R55, R240). -/
abbrev Byte := BitVec 8

/-- `uval(w)` of R10: the unsigned value, in `[0, 2^32 - 1]`. -/
def uval (w : Word) : Nat := w.toNat

/-- `sval(w)` of R10: the two's-complement value, in `[-2^31, 2^31 - 1]`. -/
def sval (w : Word) : Int := w.toInt

/-- `word(n)` of R10: the word whose unsigned value is `n mod 2^32`. -/
def word (n : Int) : Word := BitVec.ofInt 32 n

end Sys2Proof
end

