-- ==== Sys2Proof/Config.lean ====
section
/-! DEFINITION. What is fixed for a run: the parameters of spec/00_scope.md R5 and the switches of R6. -/

namespace Sys2Proof.Config

/-- NREG (R5). -/
abbrev numRegs : Nat := 32

/-- NMEM (R5): the number of memory cells. -/
abbrev numCells : Nat := 256

/-- What a byte of memory that is not listed reads as: 0, the launch contents of every cell the
loader does not write (10_state.md R26, 70_reset_and_hazards.md R241, D5). -/
def unlistedByte : Byte := 0#8

/-- `OVERFLOW_MODE` (R6, D2): what `add`, `sub` and `addi` do on signed overflow. -/
inductive OverflowMode where
  | wrap
  | fault
deriving DecidableEq, Repr

/-- `UNKNOWN_FUNCT_MODE` (R6, D8): what opcode 0 with an unlisted function code does. -/
inductive UnknownFunctMode where
  | nop
  | fault
deriving DecidableEq, Repr

/-- `ADDI_ALU_KEY` (R6, D10): the `aluOpCounts` key that `addi` increments. -/
inductive AddiAluKey where
  | addi
  | add
deriving DecidableEq, Repr

/-- The switches that act during a run. `INIT_FILL`, the fourth of R6, acts at launch only and is an
argument of `Machine.launch`. -/
structure Switches where
  overflowMode     : OverflowMode
  unknownFunctMode : UnknownFunctMode
  addiAluKey       : AddiAluKey
deriving DecidableEq, Repr

/-- The spec's decisions, at which every rule is written (R6). -/
def Switches.default : Switches :=
  { overflowMode := .wrap, unknownFunctMode := .nop, addiAluKey := .addi }

end Sys2Proof.Config
end

