-- ==== Sys2Proof/Syntax.lean ====
section
/-! DEFINITION. The instructions: one constructor per row of spec/opcode_table.json (00_scope.md R2). -/

namespace Sys2Proof

/-- A register number, the value of a 5-bit field (10_state.md R20, R23). -/
abbrev RegIndex := Fin 32

/-- The ten instructions (R2), with the operands of 30_encoding.md R75 in the assembler's order (R84).
An immediate or offset is the signed value of its 16-bit field, sign-extended once, by the decoder
(R74); a jump target is the unsigned value of its 26-bit field (R72). DESIGN CHOICE (log 9): an R-type
instruction keeps its `shamt`, which no meaning reads (R78), so that no bit of a word is dropped. -/
inductive Instr where
  | add  (rd rs rt : RegIndex) (shamt : Fin 32)
  | sub  (rd rs rt : RegIndex) (shamt : Fin 32)
  | and  (rd rs rt : RegIndex) (shamt : Fin 32)
  | or   (rd rs rt : RegIndex) (shamt : Fin 32)
  | slt  (rd rs rt : RegIndex) (shamt : Fin 32)
  | j    (target : Nat)
  | beq  (rs rt : RegIndex) (offset : Int)
  | addi (rt rs : RegIndex) (imm : Int)
  | lw   (rt : RegIndex) (offset : Int) (rs : RegIndex)
  | sw   (rt : RegIndex) (offset : Int) (rs : RegIndex)
deriving DecidableEq, Repr

end Sys2Proof
end

