-- ==== Sys2Proof/WellFormed.lean ====
section
/-! DEFINITION. The operand values an encoding admits (spec/30_encoding.md R72, R74, R84). -/

namespace Sys2Proof

/-- `offset` and `imm` are integers in `[-32768, 32767]` (R84). -/
abbrev imm16Ok (n : Int) : Prop := -32768 ≤ n ∧ n ≤ 32767

/-- `target` is a slot index in `[0, 2^26 - 1]` (R72, R84). -/
abbrev target26Ok (n : Nat) : Prop := n ≤ 67108863

/-- Every operand fits its field. Register numbers and `shamt` fit by their type (R23). -/
def Instr.wellFormed : Instr → Bool
  | .add _ _ _ _ => true
  | .sub _ _ _ _ => true
  | .and _ _ _ _ => true
  | .or _ _ _ _ => true
  | .slt _ _ _ _ => true
  | .j target => decide (target26Ok target)
  | .beq _ _ offset => decide (imm16Ok offset)
  | .addi _ _ imm => decide (imm16Ok imm)
  | .lw _ offset _ => decide (imm16Ok offset)
  | .sw _ offset _ => decide (imm16Ok offset)

end Sys2Proof
end

