-- ==== Sys2Proof/Decode.lean ====
section
/-! DEFINITION. The decoder, total on every word, and the encoder (spec/30_encoding.md). -/

namespace Sys2Proof

/-- The result of decoding one word: one of the ten instructions, or one of the two kinds of
unrecognized word (R78, R83). The two are outcomes the core executes (40_cycle.md R104). -/
inductive Decoded where
  | instr (i : Instr)
  | unrecognizedOpcode
  | unrecognizedFunct
deriving DecidableEq, Repr

/-- `w[hi:lo]` of 00_scope.md R9: the unsigned value of bits `hi` down to `lo`. -/
def field (w : Word) (hi lo : Nat) : Nat := w.toNat / 2 ^ lo % 2 ^ (hi - lo + 1)

/-- `sext_16` of R74, on the value of a 16-bit field. -/
def sext16 (v : Nat) : Int := if v ≤ 32767 then v else v - 65536

/-- A 5-bit field `w[lo+4:lo]`, a value in 0..31 (R73). -/
def field5 (w : Word) (lo : Nat) : Fin 32 := ⟨field w (lo + 4) lo % 32, Nat.mod_lt _ (by decide)⟩

/-- `opcode = w[31:26]` (R73). -/
def opcodeField (w : Word) : Nat := field w 31 26
/-- `rs = w[25:21]` (R73). -/
def rsField (w : Word) : RegIndex := field5 w 21
/-- `rt = w[20:16]` (R73). -/
def rtField (w : Word) : RegIndex := field5 w 16
/-- `rd = w[15:11]` (R73). -/
def rdField (w : Word) : RegIndex := field5 w 11
/-- `shamt = w[10:6]` (R73). -/
def shamtField (w : Word) : Fin 32 := field5 w 6
/-- `funct = w[5:0]` (R73). -/
def functField (w : Word) : Nat := field w 5 0
/-- `imm = w[15:0]`, the raw unsigned field (R73). -/
def immField (w : Word) : Nat := field w 15 0
/-- `target = w[25:0]`, unsigned (R72, R73). -/
def targetField (w : Word) : Nat := field w 25 0

/-- The function-code map under opcode 0 (R77). -/
def decodeFunct (w : Word) : Decoded :=
  match functField w with
  | 32 => .instr (.add (rdField w) (rsField w) (rtField w) (shamtField w))
  | 34 => .instr (.sub (rdField w) (rsField w) (rtField w) (shamtField w))
  | 36 => .instr (.and (rdField w) (rsField w) (rtField w) (shamtField w))
  | 37 => .instr (.or (rdField w) (rsField w) (rtField w) (shamtField w))
  | 42 => .instr (.slt (rdField w) (rsField w) (rtField w) (shamtField w))
  | _ => .unrecognizedFunct

/-- The decode function (R76, R78): it reads `opcode`, and `funct` when `opcode = 0`, and checks no
other field. -/
def decode (w : Word) : Decoded :=
  match opcodeField w with
  | 0 => decodeFunct w
  | 2 => .instr (.j (targetField w))
  | 4 => .instr (.beq (rsField w) (rtField w) (sext16 (immField w)))
  | 8 => .instr (.addi (rtField w) (rsField w) (sext16 (immField w)))
  | 35 => .instr (.lw (rtField w) (sext16 (immField w)) (rsField w))
  | 43 => .instr (.sw (rtField w) (sext16 (immField w)) (rsField w))
  | _ => .unrecognizedOpcode

/-- The R-type word of R71 under opcode 0. -/
def encodeR (rd rs rt : RegIndex) (shamt : Fin 32) (funct : Nat) : Word :=
  BitVec.ofNat 32 (rs.val * 2 ^ 21 + rt.val * 2 ^ 16 + rd.val * 2 ^ 11 + shamt.val * 2 ^ 6 + funct)

/-- The I-type word of R71, its immediate field `imm mod 65536` (R84). -/
def encodeI (opcode : Nat) (rs rt : RegIndex) (imm : Int) : Word :=
  BitVec.ofNat 32 (opcode * 2 ^ 26 + rs.val * 2 ^ 21 + rt.val * 2 ^ 16 + (imm % 65536).toNat)

/-- The J-type word of R71. -/
def encodeJ (target : Nat) : Word := BitVec.ofNat 32 (2 * 2 ^ 26 + target)

/-- The word of a well-formed instruction (R71, R79, R84). -/
def encode : Instr → Word
  | .add rd rs rt shamt => encodeR rd rs rt shamt 32
  | .sub rd rs rt shamt => encodeR rd rs rt shamt 34
  | .and rd rs rt shamt => encodeR rd rs rt shamt 36
  | .or rd rs rt shamt => encodeR rd rs rt shamt 37
  | .slt rd rs rt shamt => encodeR rd rs rt shamt 42
  | .j target => encodeJ target
  | .beq rs rt offset => encodeI 4 rs rt offset
  | .addi rt rs imm => encodeI 8 rs rt imm
  | .lw rt offset rs => encodeI 35 rs rt offset
  | .sw rt offset rs => encodeI 43 rs rt offset

/-- The instruction the decoder reads from a word numbered as spec/opcode_table.json numbers it: one
cell is one instruction of 32 bits (R70), and every bit above `nbits` is 0. -/
def decodeTableWord (nbits w : Nat) : Option Instr :=
  match decode (BitVec.ofNat 32 (w % 2 ^ nbits)) with
  | .instr i => some i
  | .unrecognizedOpcode => none
  | .unrecognizedFunct => none

end Sys2Proof
end

