-- ==== Sys2Proof/Machine/State.lean ====
section
/-! DEFINITION. The state of the core (spec/10_state.md R20 to R33), the reasons a step can stop, and
the state right after reset (spec/70_reset_and_hazards.md R241). -/

namespace Sys2Proof.Machine

/-- `runState` (R32). -/
inductive RunState where
  | ready
  | running
  | halted
  | faulted
deriving DecidableEq, Repr

/-- The fault causes (60_exceptions.md R201). -/
inductive FaultCause where
  | fetchOutOfBounds
  | loadOutOfBounds
  | storeOutOfBounds
  | arithmeticOverflow
  | unrecognizedFunctFault
deriving DecidableEq, Repr

/-- `faultRecord` when it is not `none` (R33). -/
structure FaultRecord where
  cause   : FaultCause
  faultPc : Int
  info    : Int
deriving DecidableEq, Repr

/-- The keys of `aluOpCounts` (R29) under either `ADDI_ALU_KEY`; `aluKeySet` says which of them exist. -/
inductive AluKey where
  | add
  | and
  | or
  | sub
  | slt
  | addi
deriving DecidableEq, Repr

/-- The keys of `instructionTypeCounts` (R30): one per mnemonic. -/
inductive TypeKey where
  | add
  | and
  | or
  | sub
  | slt
  | addi
  | lw
  | sw
  | beq
  | j
deriving DecidableEq, Repr

/-- `aluOpCounts` (R29): one unbounded counter per key of its key set. The key `addi` exists (`some`) under
`ADDI_ALU_KEY = addi` and does not (`none`) under `ADDI_ALU_KEY = add` (D10; log 10). -/
structure AluOpCounts where
  add  : Nat
  and  : Nat
  or   : Nat
  sub  : Nat
  slt  : Nat
  addi : Option Nat
deriving DecidableEq, Repr

/-- `instructionTypeCounts` (R30): one unbounded counter per key. -/
structure InstructionTypeCounts where
  add  : Nat
  and  : Nat
  or   : Nat
  sub  : Nat
  slt  : Nat
  addi : Nat
  lw   : Nat
  sw   : Nat
  beq  : Nat
  j    : Nat
deriving DecidableEq, Repr

/-- The two diagnostics (60_exceptions.md R203). -/
inductive DiagCode where
  | unrecognizedOpcode
  | unrecognizedFunct
deriving DecidableEq, Repr

/-- One `Diag(code, faultPc, w)` event (R203). -/
structure Diag where
  code    : DiagCode
  faultPc : Int
  word    : Word
deriving DecidableEq, Repr

/-- Memory: its bytes by byte address, addresses strictly rising, no entry equal to what an unlisted
byte reads as. Cell `M[k]` (R26) is the four bytes at `4*k` to `4*k+3`, the first of them bits 31-24,
as the loader lays them out (20_memory.md R55; log 2). -/
abbrev Memory := List Host.Cell

/-- The state: R20 to R33, and three fields of the model's own, `switches`, `observeCount` and
`diagLog` (log 1, log 7). -/
@[ext]
structure State where
  /-- `x[0]` to `x[31]` (R20). -/
  regs : Vector Word 32
  /-- `M[0]` to `M[255]` (R26). -/
  mem : Memory
  /-- The program counter, an integer slot index that may be negative (R24). -/
  pc : Int
  /-- `instructionCount` (R27). -/
  instructionCount : Nat
  /-- `cycleCount` (R28). -/
  cycleCount : Nat
  /-- `aluOpCounts` (R29). -/
  aluOpCounts : AluOpCounts
  /-- `instructionTypeCounts` (R30). -/
  instructionTypeCounts : InstructionTypeCounts
  /-- `memoryReadCount` (R31). -/
  memoryReadCount : Nat
  /-- `memoryWriteCount` (R31). -/
  memoryWriteCount : Nat
  /-- `runState` (R32). -/
  runState : RunState
  /-- `faultRecord` (R33). -/
  faultRecord : Option FaultRecord
  /-- DESIGN CHOICE (log 1): the switches of 00_scope.md R6 that act during a run; no step writes them. -/
  switches : Config.Switches
  /-- DESIGN CHOICE (log 7): the number of `Observe` events emitted so far (00_scope.md R7). -/
  observeCount : Nat
  /-- DESIGN CHOICE (log 7): the `Diag` events emitted so far, oldest first (00_scope.md R7). -/
  diagLog : List Diag
deriving DecidableEq, Repr

/-- Why a step stops with no next state: the two terminal states of the run loop, which have no step
(40_cycle.md R110; spec/93 rows 15 and 16: `stuck`). Every fault of the spec itself (R201) is a NEXT
state whose `runState` is `Faulted` (R204). -/
inductive Fault where
  /-- Raised by `step` in a state whose `runState` is `Halted`. Safe: the spec gives that state no step. -/
  | noStepHalted
  /-- Raised by `step` in a state whose `runState` is `Faulted`. Safe: the spec gives that state no step. -/
  | noStepFaulted
deriving DecidableEq, Repr

/-- Why an instruction has no meaning. -/
inductive Refusal where
  /-- Would be raised by an arm of `exec` for an instruction without a meaning; no arm raises it. Safe. -/
  | notModelled (mnemonic : String)
deriving DecidableEq, Repr

/-- Every `aluOpCounts` key of the mode's key set at 0 (R29). -/
def AluOpCounts.zero (mode : Config.AddiAluKey) : AluOpCounts :=
  { add := 0, and := 0, or := 0, sub := 0, slt := 0
    addi :=
      match mode with
      | .addi => some 0
      | .add => none }

/-- Every `instructionTypeCounts` key at 0 (R30). -/
def InstructionTypeCounts.zero : InstructionTypeCounts :=
  { add := 0, and := 0, or := 0, sub := 0, slt := 0, addi := 0, lw := 0, sw := 0, beq := 0, j := 0 }

/-- The state right after reset (70_reset_and_hazards.md R241) at the default switches, with nothing
loaded: the launch of the empty input, whose `instructionCount` is 0 (R240; log 4). -/
def State.reset : State :=
  { regs := Vector.replicate 32 0#32
    mem := []
    pc := 0
    instructionCount := 0
    cycleCount := 0
    aluOpCounts := AluOpCounts.zero Config.Switches.default.addiAluKey
    instructionTypeCounts := InstructionTypeCounts.zero
    memoryReadCount := 0
    memoryWriteCount := 0
    runState := .ready
    faultRecord := none
    switches := Config.Switches.default
    observeCount := 0
    diagLog := [] }

/-- What the observer is handed (10_state.md R36): the whole state of R20 to R33, read only. -/
structure Snapshot where
  regs : Vector Word 32
  mem : Memory
  pc : Int
  instructionCount : Nat
  cycleCount : Nat
  aluOpCounts : AluOpCounts
  instructionTypeCounts : InstructionTypeCounts
  memoryReadCount : Nat
  memoryWriteCount : Nat
  runState : RunState
  faultRecord : Option FaultRecord
deriving DecidableEq, Repr

/-- The output events of the block interface (00_scope.md R7). -/
inductive Event where
  | observe (snapshot : Snapshot)
  | diag (d : Diag)
deriving DecidableEq, Repr

/-- The terminal status, the third output of the block interface (R7): `Halted`, or `Faulted` with the
fault record. -/
inductive TerminalStatus where
  | halted
  | faulted (record : Option FaultRecord)
deriving DecidableEq, Repr

end Sys2Proof.Machine
end

