-- ==== Sys2Proof/Machine/Ops.lean ====
section
/-! DEFINITION. The named operations over registers, memory, counters and events (spec/00_scope.md R11),
and raising a fault (spec/60_exceptions.md R204). -/

namespace Sys2Proof.Machine

/-! ## Registers (10_state.md R20 to R23) -/

/-- `x[r]` (R11). -/
def State.reg (s : State) (r : Fin 32) : Word := s.regs[r.val]

/-- `x[r] <- v` (R11). Register 0 is an ordinary register (R21). -/
def State.setReg (s : State) (r : Fin 32) (v : Word) : State :=
  { s with regs := s.regs.set r.val v }

/-! ## Memory (20_memory.md R50 to R56) -/

/-- The byte at a byte address; an address that is not listed reads as `Config.unlistedByte`. -/
def Memory.readByte : Memory → Nat → Byte
  | [], _ => Config.unlistedByte
  | (b, v) :: rest, a => if a = b then v else Memory.readByte rest a

/-- Writes the byte at a byte address, keeping the canonical form: writing what an unlisted address
reads as removes the entry. -/
def Memory.writeByte : Memory → Nat → Byte → Memory
  | [], a, v => if v = Config.unlistedByte then [] else [(a, v)]
  | (b, u) :: rest, a, v =>
    if a < b then
      if v = Config.unlistedByte then (b, u) :: rest else (a, v) :: (b, u) :: rest
    else if a = b then
      if v = Config.unlistedByte then rest else (a, v) :: rest
    else (b, u) :: Memory.writeByte rest a v

/-- The number of bytes of the 256 four-byte cells (10_state.md R26). -/
abbrev Memory.numBytes : Nat := 4 * Config.numCells

/-- The list's addresses are at least `lo`, strictly rising and inside the array, and no entry equals
what an unlisted address reads as. -/
def Memory.wfFrom (lo : Nat) : Memory → Bool
  | [] => true
  | (b, v) :: rest =>
    decide (lo ≤ b) && decide (b < Memory.numBytes) && decide (v ≠ Config.unlistedByte)
      && Memory.wfFrom (b + 1) rest

/-- The canonical form of memory. -/
def Memory.wf (m : Memory) : Bool := Memory.wfFrom 0 m

/-- Byte `j` of a cell's pattern, byte 0 being bits 31-24 and byte 3 bits 7-0 (R55). -/
def wordByte (w : Word) (j : Nat) : Byte := BitVec.ofNat 8 (w.toNat / 2 ^ (24 - 8 * j))

/-- The cell whose four bytes, first to last, are `b0` to `b3` (R55, 70_reset_and_hazards.md R240). -/
def joinBytes (b0 b1 b2 b3 : Byte) : Word :=
  BitVec.ofNat 32 (b0.toNat * 2 ^ 24 + b1.toNat * 2 ^ 16 + b2.toNat * 2 ^ 8 + b3.toNat)

/-- The cell at word index `k` (R51). -/
def Memory.readCell (m : Memory) (k : Nat) : Word :=
  joinBytes (m.readByte (4 * k)) (m.readByte (4 * k + 1)) (m.readByte (4 * k + 2))
    (m.readByte (4 * k + 3))

/-- Writes the cell at word index `k` (R51). -/
def Memory.writeCell (m : Memory) (k : Nat) (v : Word) : Memory :=
  (((m.writeByte (4 * k) (wordByte v 0)).writeByte (4 * k + 1) (wordByte v 1)).writeByte
    (4 * k + 2) (wordByte v 2)).writeByte (4 * k + 3) (wordByte v 3)

/-- The cell an integer word index names, if it is one of `0..255` (R52). -/
def cellIndex (k : Int) : Option Nat := if 0 ≤ k ∧ k ≤ 255 then some k.toNat else none

/-- `MemRead(k, 1)` (R52): `none` where the caller raises its `OutOfBounds` fault. -/
def State.memRead (s : State) (k : Int) : Option Word :=
  match cellIndex k with
  | none => none
  | some c => some (s.mem.readCell c)

/-- `M[c] <- v` for a cell `c` of the array (R52). -/
def State.storeCell (s : State) (c : Nat) (v : Word) : State := { s with mem := s.mem.writeCell c v }

/-- `MemWrite(k, 1, v)` (R52): `none` where the caller raises its `OutOfBounds` fault. -/
def State.memWrite (s : State) (k : Int) (v : Word) : Option State :=
  match cellIndex k with
  | none => none
  | some c => some (s.storeCell c v)

/-! ## The program counter (10_state.md R24, R25) -/

/-- `pc <- t` (R11). -/
def State.setPc (s : State) (t : Int) : State := { s with pc := t }

/-- The slot of the executing instruction: during execution `pc` holds that slot plus one (R24). -/
def State.currentSlot (s : State) : Int := s.pc - 1

/-! ## Counters (10_state.md R28 to R31) -/

/-- The key set of `aluOpCounts` (R29, D10). -/
def aluKeySet : Config.AddiAluKey → List AluKey
  | .addi => [.add, .and, .or, .sub, .slt, .addi]
  | .add => [.add, .and, .or, .sub, .slt]

/-- `aluOpCounts[k]` (R29), `none` for a key that is not in the map. -/
def AluOpCounts.lookup (c : AluOpCounts) : AluKey → Option Nat
  | .add => some c.add
  | .and => some c.and
  | .or => some c.or
  | .sub => some c.sub
  | .slt => some c.slt
  | .addi => c.addi

/-- The keys that are in the map, in the order of R29. -/
def AluOpCounts.keys (c : AluOpCounts) : List AluKey :=
  [AluKey.add, .and, .or, .sub, .slt, .addi].filter (fun k => (c.lookup k).isSome)

/-- How often key `k` has been counted: `aluOpCounts[k]`, 0 for a key that is not in the map (log 10). -/
def AluOpCounts.get (c : AluOpCounts) (k : AluKey) : Nat := (c.lookup k).getD 0

/-- `inc(aluOpCounts[k])` (R29). Every key an instruction increments is in the map (`State.keysAgree`);
in a state no run reaches, a missing key enters it at 1 (log 10). -/
def AluOpCounts.inc (c : AluOpCounts) : AluKey → AluOpCounts
  | .add => { c with add := c.add + 1 }
  | .and => { c with and := c.and + 1 }
  | .or => { c with or := c.or + 1 }
  | .sub => { c with sub := c.sub + 1 }
  | .slt => { c with slt := c.slt + 1 }
  | .addi => { c with addi := some (c.addi.getD 0 + 1) }

/-- `instructionTypeCounts[k]` (R30). -/
def InstructionTypeCounts.get (c : InstructionTypeCounts) : TypeKey → Nat
  | .add => c.add
  | .and => c.and
  | .or => c.or
  | .sub => c.sub
  | .slt => c.slt
  | .addi => c.addi
  | .lw => c.lw
  | .sw => c.sw
  | .beq => c.beq
  | .j => c.j

/-- `inc(instructionTypeCounts[k])` (R30). -/
def InstructionTypeCounts.inc (c : InstructionTypeCounts) : TypeKey → InstructionTypeCounts
  | .add => { c with add := c.add + 1 }
  | .and => { c with and := c.and + 1 }
  | .or => { c with or := c.or + 1 }
  | .sub => { c with sub := c.sub + 1 }
  | .slt => { c with slt := c.slt + 1 }
  | .addi => { c with addi := c.addi + 1 }
  | .lw => { c with lw := c.lw + 1 }
  | .sw => { c with sw := c.sw + 1 }
  | .beq => { c with beq := c.beq + 1 }
  | .j => { c with j := c.j + 1 }

/-- The sum over the keys of `aluOpCounts` (40_cycle.md R109). -/
def AluOpCounts.sum (c : AluOpCounts) : Nat := c.add + c.and + c.or + c.sub + c.slt + c.addi.getD 0

/-- The sum over the keys of `instructionTypeCounts` (40_cycle.md R109). -/
def InstructionTypeCounts.sum (c : InstructionTypeCounts) : Nat :=
  c.add + c.and + c.or + c.sub + c.slt + c.addi + c.lw + c.sw + c.beq + c.j

/-- `inc(instructionTypeCounts[k])` on the state (40_cycle.md R105). -/
def State.countType (s : State) (k : TypeKey) : State :=
  { s with instructionTypeCounts := s.instructionTypeCounts.inc k }

/-- `inc(aluOpCounts[k])` on the state (40_cycle.md R105). -/
def State.countAlu (s : State) (k : AluKey) : State :=
  { s with aluOpCounts := s.aluOpCounts.inc k }

/-- `inc(memoryReadCount)` (40_cycle.md R105). -/
def State.countMemRead (s : State) : State := { s with memoryReadCount := s.memoryReadCount + 1 }

/-- `inc(memoryWriteCount)` (40_cycle.md R105). -/
def State.countMemWrite (s : State) : State := { s with memoryWriteCount := s.memoryWriteCount + 1 }

/-- `inc(cycleCount); runState <- Running`, the end of a cycle that completes (40_cycle.md R100). -/
def State.countCycle (s : State) : State :=
  { s with cycleCount := s.cycleCount + 1, runState := .running }

/-! ## Events (00_scope.md R7) -/

/-- The snapshot of R36: the whole state of R20 to R33. -/
def State.snapshot (s : State) : Snapshot :=
  { regs := s.regs
    mem := s.mem
    pc := s.pc
    instructionCount := s.instructionCount
    cycleCount := s.cycleCount
    aluOpCounts := s.aluOpCounts
    instructionTypeCounts := s.instructionTypeCounts
    memoryReadCount := s.memoryReadCount
    memoryWriteCount := s.memoryWriteCount
    runState := s.runState
    faultRecord := s.faultRecord }

/-- `emit Observe(snapshot)`: the state counts it, and `stepEvents` gives its snapshot (log 7). -/
def State.notifyObserver (s : State) : State := { s with observeCount := s.observeCount + 1 }

/-- `emit Diag(code, faultPc, w)` (60_exceptions.md R203). -/
def State.emitDiag (s : State) (code : DiagCode) (faultPc : Int) (w : Word) : State :=
  { s with diagLog := s.diagLog ++ [{ code := code, faultPc := faultPc, word := w }] }

/-- The numeric code of a diagnostic (60_exceptions.md R203). -/
def DiagCode.number : DiagCode → Nat
  | .unrecognizedOpcode => 32
  | .unrecognizedFunct => 33

/-! ## Faults and the halt -/

/-- The numeric code of a fault cause (60_exceptions.md R201). -/
def FaultCause.number : FaultCause → Nat
  | .fetchOutOfBounds => 1
  | .loadOutOfBounds => 2
  | .storeOutOfBounds => 3
  | .arithmeticOverflow => 4
  | .unrecognizedFunctFault => 5

/-- `raise Fault(cause, (faultPc, info))` (60_exceptions.md R204): the fault record and the run state
are written and nothing else. There is no handler, vector or return (R204, R205): the run ends. -/
def State.raiseFault (s : State) (cause : FaultCause) (faultPc info : Int) : State :=
  { s with
    runState := .faulted
    faultRecord := some { cause := cause, faultPc := faultPc, info := info } }

/-- `halt()` (40_cycle.md R101): the run state, then the final `Observe`. -/
def State.halt (s : State) : State := { s with runState := .halted, observeCount := s.observeCount + 1 }

/-- The terminal status of the block interface (00_scope.md R7). -/
def State.terminalStatus (s : State) : Option TerminalStatus :=
  match s.runState with
  | .ready => none
  | .running => none
  | .halted => some .halted
  | .faulted => some (.faulted s.faultRecord)

end Sys2Proof.Machine
end

