-- ==== Sys2Proof/Machine/Flags.lean ====
section
/-! DEFINITION. The core has no flags or condition codes (spec/10_state.md R34). This file holds the
tests the instructions make instead: signed overflow (R130, R131, R170) and the signed comparison of
`slt` (R134). -/

namespace Sys2Proof.Machine

/-- The exact result is a signed 32-bit value: `-2^31 <= n <= 2^31 - 1` (R130). -/
def fitsSigned32 (n : Int) : Bool := decide (-2147483648 ≤ n) && decide (n ≤ 2147483647)

/-- `OVERFLOW_MODE = fault` and the exact result is out of range (R130, R131, R170). -/
def overflowFaults (mode : Config.OverflowMode) (n : Int) : Bool :=
  match mode with
  | .wrap => false
  | .fault => !fitsSigned32 n

/-- `sval(a) < sval(b)` (R134). -/
def signedLess (a b : Word) : Bool := decide (sval a < sval b)

end Sys2Proof.Machine
end

