-- ==== Sys2Proof/Machine/Operands.lean ====
section
/-! DEFINITION. The operand forms: the effective address of `lw` and `sw` (spec/20_memory.md R53), the
branch target, and the two ways a result reaches its register. -/

namespace Sys2Proof.Machine

/-- `tdiv(a, b)` (00_scope.md R11): division truncating toward zero. -/
def truncDiv (a b : Int) : Int := Int.tdiv a b

/-- `ea = sval(x[rs]) + sext_16(imm)`, an exact integer (R53); the only addressing mode (44_load_store.md R182). -/
def effectiveAddress (s : State) (rs : Fin 32) (offset : Int) : Int := sval (s.reg rs) + offset

/-- `idx = tdiv(ea, 4)` (R53, R54). -/
def effectiveIndex (s : State) (rs : Fin 32) (offset : Int) : Int :=
  truncDiv (effectiveAddress s rs offset) 4

/-- The `aluOpCounts` key of `addi` under `ADDI_ALU_KEY` (10_state.md R29). -/
def addiKey (s : State) : AluKey :=
  match s.switches.addiAluKey with
  | .addi => .addi
  | .add => .add

/-- The end of an ALU-bearing instruction that writes a register: the register, then the counters (40_cycle.md R105). -/
def writeAlu (s : State) (rd : Fin 32) (v : Word) (tk : TypeKey) (ak : AluKey) : State :=
  ((s.setReg rd v).countType tk).countAlu ak

/-- The common form of `add`, `sub` and `addi` (R130, R131, R170): the exact result raises
`ArithmeticOverflow` in fault mode when it does not fit, and is otherwise written modulo 2^32. -/
def writeExact (s : State) (rd : Fin 32) (n : Int) (tk : TypeKey) (ak : AluKey) : State :=
  if overflowFaults s.switches.overflowMode n then
    s.raiseFault .arithmeticOverflow s.currentSlot rd.val
  else writeAlu s rd (word n) tk ak

end Sys2Proof.Machine
end

