-- ==== Sys2Proof/Machine/Alu.lean ====
section
/-! DEFINITION. The R-type ALU instructions (spec/41_rtype_alu.md). In every meaning the state's `pc` is the
post-fetch value; `shamt` is ignored (30_encoding.md R78). -/

namespace Sys2Proof.Machine

/-- `add rd, rs, rt` (R130). -/
def execAdd (rd rs rt _shamt : Fin 32) (s : State) : Host.Outcome State Fault Refusal :=
  .next (writeExact s rd (sval (s.reg rs) + sval (s.reg rt)) .add .add)

/-- `sub rd, rs, rt` (R131). -/
def execSub (rd rs rt _shamt : Fin 32) (s : State) : Host.Outcome State Fault Refusal :=
  .next (writeExact s rd (sval (s.reg rs) - sval (s.reg rt)) .sub .sub)

/-- `and rd, rs, rt` (R132). -/
def execAnd (rd rs rt _shamt : Fin 32) (s : State) : Host.Outcome State Fault Refusal :=
  .next (writeAlu s rd (s.reg rs &&& s.reg rt) .and .and)

/-- `or rd, rs, rt` (R133). -/
def execOr (rd rs rt _shamt : Fin 32) (s : State) : Host.Outcome State Fault Refusal :=
  .next (writeAlu s rd (s.reg rs ||| s.reg rt) .or .or)

/-- `slt rd, rs, rt` (R134). -/
def execSlt (rd rs rt _shamt : Fin 32) (s : State) : Host.Outcome State Fault Refusal :=
  .next (writeAlu s rd (if signedLess (s.reg rs) (s.reg rt) then word 1 else word 0) .slt .slt)

end Sys2Proof.Machine
end

