-- ==== Sys2Proof/Machine/Control.lean ====
section
/-! DEFINITION. The control transfers (spec/42_control.md). There are no delay slots (R152). -/

namespace Sys2Proof.Machine

/-- `j target` (R150): the target is an absolute slot index. -/
def execJ (target : Nat) (s : State) : Host.Outcome State Fault Refusal :=
  .next ((s.setPc (target : Int)).countType .j)

/-- `beq rs, rt, offset` (R151): the implicit subtract is counted, taken or not, and never faults. -/
def execBeq (rs rt : Fin 32) (offset : Int) (s : State) : Host.Outcome State Fault Refusal :=
  if s.reg rs = s.reg rt then .next (((s.countType .beq).countAlu .sub).setPc (s.pc + offset))
  else .next ((s.countType .beq).countAlu .sub)

end Sys2Proof.Machine
end

