-- ==== Sys2Proof/Machine/Immediate.lean ====
section
/-! DEFINITION. Immediate arithmetic (spec/43_addi.md). -/

namespace Sys2Proof.Machine

/-- `addi rt, rs, imm` (R170). -/
def execAddi (rt rs : Fin 32) (imm : Int) (s : State) : Host.Outcome State Fault Refusal :=
  .next (writeExact s rt (sval (s.reg rs) + imm) .addi (addiKey s))

end Sys2Proof.Machine
end

