-- ==== Sys2Proof/Machine/LoadStore.lean ====
section
/-! DEFINITION. Loads and stores (spec/44_load_store.md). -/

namespace Sys2Proof.Machine

/-- `lw rt, offset(rs)` (R180): the whole cell, or `LoadOutOfBounds` with nothing written. -/
def execLw (rt : Fin 32) (offset : Int) (rs : Fin 32) (s : State) : Host.Outcome State Fault Refusal :=
  match s.memRead (effectiveIndex s rs offset) with
  | none => .next (s.raiseFault .loadOutOfBounds s.currentSlot (effectiveIndex s rs offset))
  | some v => .next (((s.setReg rt v).countType .lw).countMemRead)

/-- `sw rt, offset(rs)` (R181): the whole register, or `StoreOutOfBounds` with nothing written. -/
def execSw (rt : Fin 32) (offset : Int) (rs : Fin 32) (s : State) : Host.Outcome State Fault Refusal :=
  match s.memWrite (effectiveIndex s rs offset) (s.reg rt) with
  | none => .next (s.raiseFault .storeOutOfBounds s.currentSlot (effectiveIndex s rs offset))
  | some t => .next ((t.countType .sw).countMemWrite)

end Sys2Proof.Machine
end

