-- ==== Sys2Proof/Machine/Dispatch.lean ====
section
/-! DEFINITION. The dispatch of spec/40_cycle.md R103: one arm per instruction. -/

namespace Sys2Proof.Machine

def exec (i : Instr) (s : State) : Host.Outcome State Fault Refusal :=
  match i with
  | .add rd rs rt shamt => Sys2Proof.Machine.execAdd rd rs rt shamt s
  | .sub rd rs rt shamt => Sys2Proof.Machine.execSub rd rs rt shamt s
  | .and rd rs rt shamt => Sys2Proof.Machine.execAnd rd rs rt shamt s
  | .or rd rs rt shamt => Sys2Proof.Machine.execOr rd rs rt shamt s
  | .slt rd rs rt shamt => Sys2Proof.Machine.execSlt rd rs rt shamt s
  | .j target => Sys2Proof.Machine.execJ target s
  | .beq rs rt offset => Sys2Proof.Machine.execBeq rs rt offset s
  | .addi rt rs imm => Sys2Proof.Machine.execAddi rt rs imm s
  | .lw rt offset rs => Sys2Proof.Machine.execLw rt offset rs s
  | .sw rt offset rs => Sys2Proof.Machine.execSw rt offset rs s

end Sys2Proof.Machine
end

