-- ==== Sys2Proof/Machine/Unrecognized.lean ====
section
/-! DEFINITION. Executing an unrecognized word (spec/40_cycle.md R104, spec/30_encoding.md R80, R81). -/

namespace Sys2Proof.Machine

/-- `execute(UNRECOGNIZED_OPCODE, w)` (R104). -/
def execUnrecognizedOpcode (w : Word) (s : State) : State :=
  s.emitDiag .unrecognizedOpcode s.currentSlot w

/-- `execute(UNRECOGNIZED_FUNCT, w)` (R104) under `UNKNOWN_FUNCT_MODE` (D8). -/
def execUnrecognizedFunct (w : Word) (s : State) : State :=
  match s.switches.unknownFunctMode with
  | .nop => s.emitDiag .unrecognizedFunct s.currentSlot w
  | .fault => s.raiseFault .unrecognizedFunctFault s.currentSlot (uval w)

end Sys2Proof.Machine
end

