-- ==== Sys2Proof/Machine/Cycle.lean ====
section
/-! DEFINITION. The run loop (spec/40_cycle.md R100 to R104): the cycle, the halt step and the terminal
states. -/

namespace Sys2Proof.Machine

/-- `execute(decode(w), w)` (R103), on the state the fetch left. -/
def execute (d : Decoded) (w : Word) (s : State) : Host.Outcome State Fault Refusal :=
  match d with
  | .instr i => exec i s
  | .unrecognizedOpcode => .next (execUnrecognizedOpcode w s)
  | .unrecognizedFunct => .next (execUnrecognizedFunct w s)

/-- The end of a cycle (R100): `inc(cycleCount); runState <- Running`, unless a fault was raised, when
the rest of the cycle is not performed (60_exceptions.md R204). -/
def completeCycle (s : State) : State :=
  match s.runState with
  | .faulted => s
  | .ready => s.countCycle
  | .running => s.countCycle
  | .halted => s.countCycle

/-- `completeCycle` after an execute that answered a state. -/
def finishCycle (o : Host.Outcome State Fault Refusal) : Host.Outcome State Fault Refusal :=
  match o with
  | .next t => .next (completeCycle t)
  | .fault r => .fault r
  | .refused r => .refused r

/-- `cycle()` (R100): `Observe`, then the fetch (R102), which reads `M[pc]` and adds one to `pc` or raises
`FetchOutOfBounds`, then the execute, then the end of the cycle. -/
def cycle (s : State) : Host.Outcome State Fault Refusal :=
  match s.notifyObserver.memRead s.pc with
  | none => .next (s.notifyObserver.raiseFault .fetchOutOfBounds s.pc s.pc)
  | some w => finishCycle (execute (decode w) w (s.notifyObserver.setPc (s.pc + 1)))

/-- One step of the run loop: the halt test comes first (60_exceptions.md R206), and the terminal states
have no step (R110). -/
def runLoop (s : State) : Host.Outcome State Fault Refusal :=
  match s.runState with
  | .halted => .fault .noStepHalted
  | .faulted => .fault .noStepFaulted
  | .ready => if s.pc < s.instructionCount then cycle s else .next s.halt
  | .running => if s.pc < s.instructionCount then cycle s else .next s.halt

end Sys2Proof.Machine
end

