-- ==== Sys2Proof/Machine/Step.lean ====
section
/-! DEFINITION. One step of the machine, and placing an instruction where it fetches next. -/

namespace Sys2Proof.Machine

/-- One step of the core (spec/40_cycle.md R100, R101, R110). -/
def step (s : State) : Host.Outcome State Fault Refusal := runLoop s

/-- `s` with one instruction word stored in the slot the next step fetches, standing for the launch that
loads it (70_reset_and_hazards.md R240; log 4, log 8): the slot counts as loaded (R27), and a state that
could not step, or whose `pc` names no cell, is made able to fetch it. -/
def State.withFetchWord (s : State) (nbits w : Nat) : State :=
  let slot : Nat := (cellIndex s.pc).getD 0
  { s with
    mem := s.mem.writeCell slot (BitVec.ofNat 32 (w % 2 ^ nbits))
    pc := (slot : Int)
    instructionCount := max s.instructionCount (slot + 1)
    runState :=
      match s.runState with
      | .ready => .ready
      | .running => .running
      | .halted => .ready
      | .faulted => .ready }

end Sys2Proof.Machine
end

