-- ==== Sys2Proof/Machine/Events.lean ====
section
/-! DEFINITION. The output events of a step (spec/00_scope.md R7), a function of the state alone
(spec/40_cycle.md R108). -/

namespace Sys2Proof.Machine

/-- The events one step emits, in order. A cycle emits `Observe` of the state before the fetch, then the
`Diag` of an unrecognized word (R100, R104); the halt emits `Observe` of the halted state (R101); nothing
follows a fault (60_exceptions.md R204). -/
def stepEvents (s : State) : List Event :=
  match step s with
  | .next t =>
    let diags := (t.diagLog.drop s.diagLog.length).map Event.diag
    match t.runState with
    | .halted => .observe t.snapshot :: diags
    | .ready => .observe s.snapshot :: diags
    | .running => .observe s.snapshot :: diags
    | .faulted => .observe s.snapshot :: diags
  | .fault _ => []
  | .refused _ => []

/-- The events of the first `n` steps, in order, up to the end of the run (R110). -/
def runEvents : Nat → State → List Event
  | 0, _ => []
  | n + 1, s =>
    stepEvents s ++
      match step s with
      | .next t => runEvents n t
      | .fault _ => []
      | .refused _ => []

end Sys2Proof.Machine
end

