-- ==== Sys2Proof/Machine/Launch.lean ====
section
/-! DEFINITION. The launch contract: the loader (spec/70_reset_and_hazards.md R240) and the reset state it
leads to (R241). It happens once, before the first step. -/

namespace Sys2Proof.Machine

/-- `MalformedInput` (60_exceptions.md R202): the launch is refused and creates no state. -/
inductive LaunchRefusal where
  | malformedInput
deriving DecidableEq, Repr

/-- `INIT_FILL` (00_scope.md R6, D4, D5): what the registers and the cells beyond the program hold. -/
inductive InitFill where
  | zero
  | arbitrary (regs : Vector Word 32) (cells : Vector Word 256)
deriving DecidableEq, Repr

/-- The loop of `load(bytes)` (R240), from the count `n` of words loaded so far into memory `m`. -/
def loadWords : List Byte → Nat → Memory → Except LaunchRefusal (Memory × Nat)
  | [], n, m => .ok (m, n)
  | b0 :: b1 :: b2 :: b3 :: rest, n, m =>
    if joinBytes b0 b1 b2 b3 = 0#32 then .ok (m, n)
    else if n = Config.numCells then .error .malformedInput
    else loadWords rest (n + 1) (m.writeCell n (joinBytes b0 b1 b2 b3))
  | _ :: _, _, _ => .error .malformedInput

/-- Writes consecutive cells from index `k`. -/
def Memory.writeCells (m : Memory) (k : Nat) : List Word → Memory
  | [] => m
  | w :: ws => (m.writeCell k w).writeCells (k + 1) ws

/-- Memory before the loader writes (R241). -/
def InitFill.memory : InitFill → Memory
  | .zero => []
  | .arbitrary _ cells => Memory.writeCells [] 0 cells.toList

/-- The registers at launch (R241). -/
def InitFill.registers : InitFill → Vector Word 32
  | .zero => Vector.replicate 32 0#32
  | .arbitrary regs _ => regs

/-- The launch (R240, R241): the reset state with the loaded program, or the refusal. -/
def launch (switches : Config.Switches) (fill : InitFill) (bytes : List Byte) :
    Except LaunchRefusal State :=
  match loadWords bytes 0 fill.memory with
  | .error e => .error e
  | .ok (m, n) =>
    .ok { State.reset with
          regs := fill.registers, mem := m, instructionCount := n, switches := switches
          aluOpCounts := AluOpCounts.zero switches.addiAluKey }

end Sys2Proof.Machine
end

