-- ==== Sys2Proof/Safety.lean ====
section
/-! DEFINITION. What claims about the core are stated in terms of: the tables of spec/10_state.md R22 and
spec/40_cycle.md R105, the invariants every step keeps, and what a program can see of a state. -/

namespace Sys2Proof

/-- The one register an instruction writes, if it writes one (10_state.md R22). -/
def Instr.destination : Instr → Option RegIndex
  | .add rd _ _ _ => some rd
  | .sub rd _ _ _ => some rd
  | .and rd _ _ _ => some rd
  | .or rd _ _ _ => some rd
  | .slt rd _ _ _ => some rd
  | .j _ => none
  | .beq _ _ _ => none
  | .addi rt _ _ => some rt
  | .lw rt _ _ => some rt
  | .sw _ _ _ => none

/-- The `instructionTypeCounts` key of an instruction (40_cycle.md R105). -/
def Instr.typeKey : Instr → Machine.TypeKey
  | .add _ _ _ _ => .add
  | .sub _ _ _ _ => .sub
  | .and _ _ _ _ => .and
  | .or _ _ _ _ => .or
  | .slt _ _ _ _ => .slt
  | .j _ => .j
  | .beq _ _ _ => .beq
  | .addi _ _ _ => .addi
  | .lw _ _ _ => .lw
  | .sw _ _ _ => .sw

/-- The `aluOpCounts` key of an ALU-bearing instruction (40_cycle.md R105), the key of `addi` under
`ADDI_ALU_KEY` (10_state.md R29). -/
def Instr.aluKey (mode : Config.AddiAluKey) : Instr → Option Machine.AluKey
  | .add _ _ _ _ => some .add
  | .sub _ _ _ _ => some .sub
  | .and _ _ _ _ => some .and
  | .or _ _ _ _ => some .or
  | .slt _ _ _ _ => some .slt
  | .j _ => none
  | .beq _ _ _ => some .sub
  | .addi _ _ _ =>
    match mode with
    | .addi => some .addi
    | .add => some .add
  | .lw _ _ _ => none
  | .sw _ _ _ => none

/-- The instruction is a `lw` (R105: it increments `memoryReadCount`). -/
def Instr.isLoad : Instr → Bool
  | .add _ _ _ _ => false
  | .sub _ _ _ _ => false
  | .and _ _ _ _ => false
  | .or _ _ _ _ => false
  | .slt _ _ _ _ => false
  | .j _ => false
  | .beq _ _ _ => false
  | .addi _ _ _ => false
  | .lw _ _ _ => true
  | .sw _ _ _ => false

/-- The instruction is a `sw` (R105: it increments `memoryWriteCount`). -/
def Instr.isStore : Instr → Bool
  | .add _ _ _ _ => false
  | .sub _ _ _ _ => false
  | .and _ _ _ _ => false
  | .or _ _ _ _ => false
  | .slt _ _ _ _ => false
  | .j _ => false
  | .beq _ _ _ => false
  | .addi _ _ _ => false
  | .lw _ _ _ => false
  | .sw _ _ _ => true

/-- The instruction can raise `ArithmeticOverflow` (60_exceptions.md R201: `add`, `sub`, `addi`). -/
def Instr.isExact : Instr → Bool
  | .add _ _ _ _ => true
  | .sub _ _ _ _ => true
  | .and _ _ _ _ => false
  | .or _ _ _ _ => false
  | .slt _ _ _ _ => false
  | .j _ => false
  | .beq _ _ _ => false
  | .addi _ _ _ => true
  | .lw _ _ _ => false
  | .sw _ _ _ => false

/-- The instruction may write `pc` (10_state.md R25: `j` and `beq`, nothing else). -/
def Instr.isControl : Instr → Bool
  | .add _ _ _ _ => false
  | .sub _ _ _ _ => false
  | .and _ _ _ _ => false
  | .or _ _ _ _ => false
  | .slt _ _ _ _ => false
  | .j _ => true
  | .beq _ _ _ => true
  | .addi _ _ _ => false
  | .lw _ _ _ => false
  | .sw _ _ _ => false

end Sys2Proof

namespace Sys2Proof.Machine

/-- The run loop takes a step from this state (40_cycle.md R100, R101). -/
abbrev State.live (s : State) : Prop := s.runState = .ready ∨ s.runState = .running

/-- A state in which the next thing the core does is a fetch (R100). -/
abbrev State.fetching (s : State) : Prop := s.live ∧ s.pc < s.instructionCount

/-- A safe state: the run has not stopped on an error (60_exceptions.md R204). -/
abbrev State.safe (s : State) : Prop := s.runState ≠ .faulted

/-- `pc` is in its reachable range (10_state.md R24, R25). -/
abbrev State.pcInRange (s : State) : Prop := -32767 ≤ s.pc ∧ s.pc ≤ 67108863

/-- `instructionCount` is an integer in `[0, 256]` (10_state.md R27). -/
abbrev State.countInRange (s : State) : Prop := s.instructionCount ≤ 256

/-- The counter invariant of 40_cycle.md R109, with R105 for the memory counters: every completed cycle is
counted by its instruction's key or by a diagnostic, and the ALU and memory counters agree with the
instruction counters. -/
abbrev State.countersAgree (s : State) : Prop :=
  s.instructionTypeCounts.sum + s.diagLog.length = s.cycleCount ∧
  s.aluOpCounts.sum =
    s.instructionTypeCounts.add + s.instructionTypeCounts.sub + s.instructionTypeCounts.and +
    s.instructionTypeCounts.or + s.instructionTypeCounts.slt + s.instructionTypeCounts.addi +
    s.instructionTypeCounts.beq ∧
  s.memoryReadCount = s.instructionTypeCounts.lw ∧
  s.memoryWriteCount = s.instructionTypeCounts.sw

/-- The keys in `aluOpCounts` are those of the mode's key set (10_state.md R29, D10). -/
abbrev State.keysAgree (s : State) : Prop :=
  s.aluOpCounts.keys = aluKeySet s.switches.addiAluKey

/-- One `Observe` per completed cycle, and one more at the halt or in the cycle that faulted (40_cycle.md
R100, R101; 60_exceptions.md R204). -/
abbrev State.observesAgree (s : State) : Prop :=
  s.observeCount = s.cycleCount + (if s.runState = .halted ∨ s.runState = .faulted then 1 else 0)

/-- There is a fault record exactly in `Faulted` (10_state.md R33, 60_exceptions.md R204). -/
abbrev State.recordAgrees (s : State) : Prop := s.runState = .faulted ↔ s.faultRecord ≠ none

/-- `Ready` is the state before any cycle (10_state.md R32). -/
abbrev State.readyIsInitial (s : State) : Prop := s.runState = .ready → s.cycleCount = 0

/-- The same to a program (10_state.md R36, R37): registers, memory, `pc`, the program's length and the
switches; not the counters, the run state, the fault record or the events. -/
abbrev State.sameView (s t : State) : Prop :=
  s.regs = t.regs ∧ s.mem = t.mem ∧ s.pc = t.pc ∧ s.instructionCount = t.instructionCount ∧
  s.switches = t.switches

end Sys2Proof.Machine
end

