-- ==== Sys2Proof/Certificates/Slice0/Obligations.lean ====
section
/-! DEFINITION. The statements for the provers, each over all states and operands, in the order of spec/. -/

open Sys2Proof Sys2Proof.Machine

/-! ## Words and encodings -/

/-- R10: `uval`, `sval` and `word` are the unsigned value, the two's-complement value and reduction modulo 2^32. -/
def Obligations.WordViewsAreModularAndSigned : Prop :=
  (∀ n : Int, (uval (word n) : Int) = n % 4294967296) ∧
  (∀ w : Word, sval w = if w.getLsbD 31 = false then (uval w : Int) else (uval w : Int) - 4294967296) ∧
  (∀ w : Word, word (sval w) = w) ∧
  (∀ n : Int, -2147483648 ≤ n → n ≤ 2147483647 → sval (word n) = n)

/-- R73: every field is the named slice of the word's 32-bit pattern. -/
def Obligations.FieldsAreBitSlices : Prop :=
  ∀ w : Word,
    opcodeField w = (w.extractLsb 31 26).toNat ∧
    (rsField w).val = (w.extractLsb 25 21).toNat ∧
    (rtField w).val = (w.extractLsb 20 16).toNat ∧
    (rdField w).val = (w.extractLsb 15 11).toNat ∧
    (shamtField w).val = (w.extractLsb 10 6).toNat ∧
    functField w = (w.extractLsb 5 0).toNat ∧
    immField w = (w.extractLsb 15 0).toNat ∧
    targetField w = (w.extractLsb 25 0).toNat

/-- R74: sign extension of the 16-bit field, its range and its round trip, and its use wherever a 16-bit field is consumed. -/
def Obligations.SignExtensionOfSixteenBits : Prop :=
  (∀ v : Nat, v ≤ 32767 → sext16 v = v) ∧
  (∀ v : Nat, 32768 ≤ v → v ≤ 65535 → sext16 v = (v : Int) - 65536) ∧
  (∀ v : Nat, v ≤ 65535 → -32768 ≤ sext16 v ∧ sext16 v ≤ 32767) ∧
  (∀ n : Int, -32768 ≤ n → n ≤ 32767 → sext16 (n % 65536).toNat = n) ∧
  (∀ w : Word,
    (opcodeField w = 4 → decode w = .instr (.beq (rsField w) (rtField w) (sext16 (immField w)))) ∧
    (opcodeField w = 8 → decode w = .instr (.addi (rtField w) (rsField w) (sext16 (immField w)))) ∧
    (opcodeField w = 35 → decode w = .instr (.lw (rtField w) (sext16 (immField w)) (rsField w))) ∧
    (opcodeField w = 43 → decode w = .instr (.sw (rtField w) (sext16 (immField w)) (rsField w))))

/-- R79, R82: words written out from the bit patterns of the opcode table decode to what they stand for. -/
def Obligations.WrittenWordsDecode : Prop :=
  decode 0b00000000001000100001100000100000#32 = .instr (.add 3 1 2 0) ∧
  decode 0b00000000001000100001100101100000#32 = .instr (.add 3 1 2 5) ∧
  decode 0b00000000001000100001100000100010#32 = .instr (.sub 3 1 2 0) ∧
  decode 0b00000000001000100001100000100100#32 = .instr (.and 3 1 2 0) ∧
  decode 0b00000000001000100001100000100101#32 = .instr (.or 3 1 2 0) ∧
  decode 0b00000000001000100001100000101010#32 = .instr (.slt 3 1 2 0) ∧
  decode 0b00001000000000000000000000000111#32 = .instr (.j 7) ∧
  decode 0b00010000001000100000000000000010#32 = .instr (.beq 1 2 2) ∧
  decode 0b00100000001000011111111111111111#32 = .instr (.addi 1 1 (-1)) ∧
  decode 0b10001100000001010000000000001000#32 = .instr (.lw 5 8 0) ∧
  decode 0b10101100001001001111111111111100#32 = .instr (.sw 4 (-4) 1) ∧
  decode 0b00000000000000000000000000000000#32 = .unrecognizedFunct ∧
  decode 0b00000100000000000000000000000000#32 = .unrecognizedOpcode

/-- R80, R81, R83: a word is unrecognized exactly when its opcode, or its function code under opcode 0, is not in the maps; every other word is one of the ten instructions. -/
def Obligations.UnrecognizedWordsAreExactlyTheUnlisted : Prop :=
  ∀ w : Word,
    (decode w = .unrecognizedOpcode ↔
      opcodeField w ≠ 0 ∧ opcodeField w ≠ 2 ∧ opcodeField w ≠ 4 ∧ opcodeField w ≠ 8 ∧
      opcodeField w ≠ 35 ∧ opcodeField w ≠ 43) ∧
    (decode w = .unrecognizedFunct ↔
      opcodeField w = 0 ∧ functField w ≠ 32 ∧ functField w ≠ 34 ∧ functField w ≠ 36 ∧
      functField w ≠ 37 ∧ functField w ≠ 42) ∧
    ((∃ i, decode w = .instr i) ↔
      (opcodeField w = 0 ∧ (functField w = 32 ∨ functField w = 34 ∨ functField w = 36 ∨
        functField w = 37 ∨ functField w = 42)) ∨
      opcodeField w = 2 ∨ opcodeField w = 4 ∨ opcodeField w = 8 ∨ opcodeField w = 35 ∨
      opcodeField w = 43)

/-- R79: a word is a row's instruction, with its operands in the row's fields, exactly when it has the row's match under the row's mask. -/
def Obligations.MatchAndMaskSelectTheInstruction : Prop :=
  ∀ w : Word,
    (w &&& 0xFC00003F#32 = 0x00000020#32 ↔
      decode w = .instr (.add (rdField w) (rsField w) (rtField w) (shamtField w))) ∧
    (w &&& 0xFC00003F#32 = 0x00000022#32 ↔
      decode w = .instr (.sub (rdField w) (rsField w) (rtField w) (shamtField w))) ∧
    (w &&& 0xFC00003F#32 = 0x00000024#32 ↔
      decode w = .instr (.and (rdField w) (rsField w) (rtField w) (shamtField w))) ∧
    (w &&& 0xFC00003F#32 = 0x00000025#32 ↔
      decode w = .instr (.or (rdField w) (rsField w) (rtField w) (shamtField w))) ∧
    (w &&& 0xFC00003F#32 = 0x0000002A#32 ↔
      decode w = .instr (.slt (rdField w) (rsField w) (rtField w) (shamtField w))) ∧
    (w &&& 0xFC000000#32 = 0x08000000#32 ↔ decode w = .instr (.j (targetField w))) ∧
    (w &&& 0xFC000000#32 = 0x10000000#32 ↔ decode w = .instr (.beq (rsField w) (rtField w) (sext16 (immField w)))) ∧
    (w &&& 0xFC000000#32 = 0x20000000#32 ↔ decode w = .instr (.addi (rtField w) (rsField w) (sext16 (immField w)))) ∧
    (w &&& 0xFC000000#32 = 0x8C000000#32 ↔ decode w = .instr (.lw (rtField w) (sext16 (immField w)) (rsField w))) ∧
    (w &&& 0xFC000000#32 = 0xAC000000#32 ↔ decode w = .instr (.sw (rtField w) (sext16 (immField w)) (rsField w)))

/-- R71, R78, R84: decoding the encoding of a well-formed instruction, of every family and with every operand value, gives it back. For an R-type with a non-zero `shamt` this is the model's choice (log 9): R84's encoder puts 0 there, and the model's `Instr` and `encode` keep it. -/
def Obligations.DecodeOfEncodeIsIdentity : Prop :=
  ∀ i : Instr, i.wellFormed = true → decode (encode i) = .instr i

/-- R71, R73, R78: a word that decodes to an instruction is that instruction's encoding, and the instruction is well formed. That no bit of an R-type word is dropped is the model's choice (log 9): its `Instr` and `encode` keep the ignored `shamt`, where R84's encoder puts 0. -/
def Obligations.EncodeOfDecodeIsIdentity : Prop :=
  ∀ (w : Word) (i : Instr), decode w = .instr i → i.wellFormed = true ∧ encode i = w

/-- R78: a non-zero `shamt` has no effect on what an R-type instruction does. -/
def Obligations.ShamtHasNoEffect : Prop :=
  ∀ (s : State) (rd rs rt sh sh' : Fin 32),
    exec (.add rd rs rt sh) s = exec (.add rd rs rt sh') s ∧
    exec (.sub rd rs rt sh) s = exec (.sub rd rs rt sh') s ∧
    exec (.and rd rs rt sh) s = exec (.and rd rs rt sh') s ∧
    exec (.or rd rs rt sh) s = exec (.or rd rs rt sh') s ∧
    exec (.slt rd rs rt sh) s = exec (.slt rd rs rt sh') s

/-! ## The instructions: encoding, result, whole next state, and the fault where there is one -/

/-- R130: `add`. The equations give the whole next state. -/
def Obligations.AddWritesSumOrRaisesOverflow : Prop :=
  (∀ w : Word, w &&& 0xFC00003F#32 = 0x00000020#32 →
    decode w = .instr (.add (rdField w) (rsField w) (rtField w) (shamtField w))) ∧
  ∀ (s : State) (rd rs rt sh : Fin 32),
    (s.switches.overflowMode = .wrap ∨
      (-2147483648 ≤ sval (s.reg rs) + sval (s.reg rt) ∧
        sval (s.reg rs) + sval (s.reg rt) ≤ 2147483647) →
      exec (.add rd rs rt sh) s = .next { s with
        regs := s.regs.set rd.val (word (sval (s.reg rs) + sval (s.reg rt)))
        instructionTypeCounts :=
          { s.instructionTypeCounts with add := s.instructionTypeCounts.add + 1 }
        aluOpCounts := { s.aluOpCounts with add := s.aluOpCounts.add + 1 } }) ∧
    (s.switches.overflowMode = .fault →
      ¬(-2147483648 ≤ sval (s.reg rs) + sval (s.reg rt) ∧
        sval (s.reg rs) + sval (s.reg rt) ≤ 2147483647) →
      exec (.add rd rs rt sh) s = .next { s with
        runState := .faulted
        faultRecord := some { cause := .arithmeticOverflow, faultPc := s.pc - 1, info := rd.val } })

/-- R131: `sub`. The equations give the whole next state. -/
def Obligations.SubWritesDifferenceOrRaisesOverflow : Prop :=
  (∀ w : Word, w &&& 0xFC00003F#32 = 0x00000022#32 →
    decode w = .instr (.sub (rdField w) (rsField w) (rtField w) (shamtField w))) ∧
  ∀ (s : State) (rd rs rt sh : Fin 32),
    (s.switches.overflowMode = .wrap ∨
      (-2147483648 ≤ sval (s.reg rs) - sval (s.reg rt) ∧
        sval (s.reg rs) - sval (s.reg rt) ≤ 2147483647) →
      exec (.sub rd rs rt sh) s = .next { s with
        regs := s.regs.set rd.val (word (sval (s.reg rs) - sval (s.reg rt)))
        instructionTypeCounts :=
          { s.instructionTypeCounts with sub := s.instructionTypeCounts.sub + 1 }
        aluOpCounts := { s.aluOpCounts with sub := s.aluOpCounts.sub + 1 } }) ∧
    (s.switches.overflowMode = .fault →
      ¬(-2147483648 ≤ sval (s.reg rs) - sval (s.reg rt) ∧
        sval (s.reg rs) - sval (s.reg rt) ≤ 2147483647) →
      exec (.sub rd rs rt sh) s = .next { s with
        runState := .faulted
        faultRecord := some { cause := .arithmeticOverflow, faultPc := s.pc - 1, info := rd.val } })

/-- R132: `and`. The equation gives the whole next state. -/
def Obligations.AndWritesBitwiseConjunction : Prop :=
  (∀ w : Word, w &&& 0xFC00003F#32 = 0x00000024#32 →
    decode w = .instr (.and (rdField w) (rsField w) (rtField w) (shamtField w))) ∧
  ∀ (s : State) (rd rs rt sh : Fin 32),
    exec (.and rd rs rt sh) s = .next { s with
      regs := s.regs.set rd.val (s.reg rs &&& s.reg rt)
      instructionTypeCounts :=
        { s.instructionTypeCounts with and := s.instructionTypeCounts.and + 1 }
      aluOpCounts := { s.aluOpCounts with and := s.aluOpCounts.and + 1 } }

/-- R133: `or`. The equation gives the whole next state. -/
def Obligations.OrWritesBitwiseDisjunction : Prop :=
  (∀ w : Word, w &&& 0xFC00003F#32 = 0x00000025#32 →
    decode w = .instr (.or (rdField w) (rsField w) (rtField w) (shamtField w))) ∧
  ∀ (s : State) (rd rs rt sh : Fin 32),
    exec (.or rd rs rt sh) s = .next { s with
      regs := s.regs.set rd.val (s.reg rs ||| s.reg rt)
      instructionTypeCounts :=
        { s.instructionTypeCounts with or := s.instructionTypeCounts.or + 1 }
      aluOpCounts := { s.aluOpCounts with or := s.aluOpCounts.or + 1 } }

/-- R134: `slt` compares the signed views. The equation gives the whole next state. -/
def Obligations.SltWritesSignedComparison : Prop :=
  (∀ w : Word, w &&& 0xFC00003F#32 = 0x0000002A#32 →
    decode w = .instr (.slt (rdField w) (rsField w) (rtField w) (shamtField w))) ∧
  ∀ (s : State) (rd rs rt sh : Fin 32),
    exec (.slt rd rs rt sh) s = .next { s with
      regs := s.regs.set rd.val (if sval (s.reg rs) < sval (s.reg rt) then 1#32 else 0#32)
      instructionTypeCounts :=
        { s.instructionTypeCounts with slt := s.instructionTypeCounts.slt + 1 }
      aluOpCounts := { s.aluOpCounts with slt := s.aluOpCounts.slt + 1 } }

/-- R150: `j`. The equation gives the whole next state. -/
def Obligations.JumpSetsPcToTarget : Prop :=
  (∀ w : Word, w &&& 0xFC000000#32 = 0x08000000#32 →
    decode w = .instr (.j (w.extractLsb 25 0).toNat)) ∧
  ∀ (s : State) (target : Nat),
    exec (.j target) s = .next { s with
      pc := (target : Int)
      instructionTypeCounts :=
        { s.instructionTypeCounts with j := s.instructionTypeCounts.j + 1 } }

/-- R151: `beq`, taken or not. `pc` is the post-fetch value. The equation gives the whole next state. -/
def Obligations.BranchAddsOffsetWhenEqual : Prop :=
  (∀ w : Word, w &&& 0xFC000000#32 = 0x10000000#32 →
    decode w = .instr (.beq (rsField w) (rtField w) (w.extractLsb 15 0).toInt)) ∧
  ∀ (s : State) (rs rt : Fin 32) (offset : Int),
    exec (.beq rs rt offset) s = .next { s with
      pc := if s.reg rs = s.reg rt then s.pc + offset else s.pc
      instructionTypeCounts :=
        { s.instructionTypeCounts with beq := s.instructionTypeCounts.beq + 1 }
      aluOpCounts := { s.aluOpCounts with sub := s.aluOpCounts.sub + 1 } }

/-- R170: `addi`, under both overflow modes and both `ADDI_ALU_KEY`s. The equations give the whole next state. Where the key `addi` is missing although the mode counts under it, in states that `State.keysAgree` rules out, that the key enters the map at 1 is the model's choice (log 10), not R170's. -/
def Obligations.AddiWritesSumOrRaisesOverflow : Prop :=
  (∀ w : Word, w &&& 0xFC000000#32 = 0x20000000#32 →
    decode w = .instr (.addi (rtField w) (rsField w) (w.extractLsb 15 0).toInt)) ∧
  ∀ (s : State) (rt rs : Fin 32) (imm : Int),
    (s.switches.overflowMode = .wrap ∨
      (-2147483648 ≤ sval (s.reg rs) + imm ∧ sval (s.reg rs) + imm ≤ 2147483647) →
      exec (.addi rt rs imm) s = .next { s with
        regs := s.regs.set rt.val (word (sval (s.reg rs) + imm))
        instructionTypeCounts :=
          { s.instructionTypeCounts with addi := s.instructionTypeCounts.addi + 1 }
        aluOpCounts :=
          match s.switches.addiAluKey with
          | .addi => { s.aluOpCounts with addi := some (s.aluOpCounts.get .addi + 1) }
          | .add => { s.aluOpCounts with add := s.aluOpCounts.add + 1 } }) ∧
    (s.switches.overflowMode = .fault →
      ¬(-2147483648 ≤ sval (s.reg rs) + imm ∧ sval (s.reg rs) + imm ≤ 2147483647) →
      exec (.addi rt rs imm) s = .next { s with
        runState := .faulted
        faultRecord := some { cause := .arithmeticOverflow, faultPc := s.pc - 1, info := rt.val } })

/-- R180: `lw` reads the whole cell, or raises `LoadOutOfBounds` with nothing else changed. The equations give the whole next state. -/
def Obligations.LoadReadsCellOrFaults : Prop :=
  (∀ w : Word, w &&& 0xFC000000#32 = 0x8C000000#32 →
    decode w = .instr (.lw (rtField w) (w.extractLsb 15 0).toInt (rsField w))) ∧
  ∀ (s : State) (rt : Fin 32) (offset : Int) (rs : Fin 32),
    (0 ≤ Int.tdiv (sval (s.reg rs) + offset) 4 ∧ Int.tdiv (sval (s.reg rs) + offset) 4 ≤ 255 →
      exec (.lw rt offset rs) s = .next { s with
        regs := s.regs.set rt.val
          (s.mem.readCell (Int.tdiv (sval (s.reg rs) + offset) 4).toNat)
        instructionTypeCounts :=
          { s.instructionTypeCounts with lw := s.instructionTypeCounts.lw + 1 }
        memoryReadCount := s.memoryReadCount + 1 }) ∧
    (¬(0 ≤ Int.tdiv (sval (s.reg rs) + offset) 4 ∧ Int.tdiv (sval (s.reg rs) + offset) 4 ≤ 255) →
      exec (.lw rt offset rs) s = .next { s with
        runState := .faulted
        faultRecord := some
          { cause := .loadOutOfBounds
            faultPc := s.pc - 1
            info := Int.tdiv (sval (s.reg rs) + offset) 4 } })

/-- R181: `sw` writes the whole cell, or raises `StoreOutOfBounds` with nothing else changed. The equations give the whole next state. -/
def Obligations.StoreWritesCellOrFaults : Prop :=
  (∀ w : Word, w &&& 0xFC000000#32 = 0xAC000000#32 →
    decode w = .instr (.sw (rtField w) (w.extractLsb 15 0).toInt (rsField w))) ∧
  ∀ (s : State) (rt : Fin 32) (offset : Int) (rs : Fin 32),
    (0 ≤ Int.tdiv (sval (s.reg rs) + offset) 4 ∧ Int.tdiv (sval (s.reg rs) + offset) 4 ≤ 255 →
      exec (.sw rt offset rs) s = .next { s with
        mem := s.mem.writeCell (Int.tdiv (sval (s.reg rs) + offset) 4).toNat (s.reg rt)
        instructionTypeCounts :=
          { s.instructionTypeCounts with sw := s.instructionTypeCounts.sw + 1 }
        memoryWriteCount := s.memoryWriteCount + 1 }) ∧
    (¬(0 ≤ Int.tdiv (sval (s.reg rs) + offset) 4 ∧ Int.tdiv (sval (s.reg rs) + offset) 4 ≤ 255) →
      exec (.sw rt offset rs) s = .next { s with
        runState := .faulted
        faultRecord := some
          { cause := .storeOutOfBounds
            faultPc := s.pc - 1
            info := Int.tdiv (sval (s.reg rs) + offset) 4 } })

/-- R21: `x[0]` is an ordinary register: each of the seven instructions that write a register writes it, and a later read gives what it holds. -/
def Obligations.RegisterZeroIsOrdinary : Prop :=
  ∀ (s : State) (rs rt sh : Fin 32),
    (s.switches.overflowMode = .wrap ∨
        (-2147483648 ≤ sval (s.reg rs) + sval (s.reg rt) ∧
          sval (s.reg rs) + sval (s.reg rt) ≤ 2147483647) →
      ∃ t, exec (.add 0 rs rt sh) s = .next t ∧ t.reg 0 = word (sval (s.reg rs) + sval (s.reg rt))) ∧
    (s.switches.overflowMode = .wrap ∨
        (-2147483648 ≤ sval (s.reg rs) - sval (s.reg rt) ∧
          sval (s.reg rs) - sval (s.reg rt) ≤ 2147483647) →
      ∃ t, exec (.sub 0 rs rt sh) s = .next t ∧ t.reg 0 = word (sval (s.reg rs) - sval (s.reg rt))) ∧
    (∃ t, exec (.and 0 rs rt sh) s = .next t ∧ t.reg 0 = s.reg rs &&& s.reg rt) ∧
    (∃ t, exec (.or 0 rs rt sh) s = .next t ∧ t.reg 0 = s.reg rs ||| s.reg rt) ∧
    (∃ t, exec (.slt 0 rs rt sh) s = .next t ∧
      t.reg 0 = if sval (s.reg rs) < sval (s.reg rt) then 1#32 else 0#32) ∧
    (∀ imm : Int, s.switches.overflowMode = .wrap ∨
        (-2147483648 ≤ sval (s.reg rs) + imm ∧ sval (s.reg rs) + imm ≤ 2147483647) →
      ∃ t, exec (.addi 0 rs imm) s = .next t ∧ t.reg 0 = word (sval (s.reg rs) + imm)) ∧
    (∀ offset : Int, 0 ≤ effectiveIndex s rs offset → effectiveIndex s rs offset ≤ 255 →
      ∃ t, exec (.lw 0 offset rs) s = .next t ∧
        t.reg 0 = s.mem.readCell (effectiveIndex s rs offset).toNat) ∧
    (∀ rd : Fin 32, ∃ t, exec (.or rd 0 0 sh) s = .next t ∧ t.reg rd = s.reg 0)

/-- R106: sources are read before the destination is written, also when they are the same register. -/
def Obligations.SourcesAreReadBeforeTheWrite : Prop :=
  ∀ (s : State) (r q sh : Fin 32),
    (s.switches.overflowMode = .wrap →
      ∃ t, exec (.add r r r sh) s = .next t ∧ t.reg r = word (2 * sval (s.reg r))) ∧
    (s.switches.overflowMode = .wrap →
      ∃ t, exec (.sub r r q sh) s = .next t ∧ t.reg r = word (sval (s.reg r) - sval (s.reg q))) ∧
    (∀ offset : Int, 0 ≤ effectiveIndex s r offset → effectiveIndex s r offset ≤ 255 →
      ∃ t, exec (.lw r offset r) s = .next t ∧
        t.reg r = s.mem.readCell (effectiveIndex s r offset).toNat)

/-! ## Frames -/

/-- R107, R22: the frame of the instructions with a destination register (`add`, `sub`, `and`, `or`, `slt`, `addi`, `lw`). A raised fault changes the run state and the fault record only. -/
def Obligations.RegisterInstructionsFrame : Prop :=
  ∀ (i : Instr) (s t : State) (rd : Fin 32), i.destination = some rd → exec i s = .next t →
    (∀ r : Fin 32, r ≠ rd → t.reg r = s.reg r) ∧
    (∀ a : Nat, t.mem.readByte a = s.mem.readByte a) ∧
    t.pc = s.pc ∧ t.instructionCount = s.instructionCount ∧ t.cycleCount = s.cycleCount ∧
    t.switches = s.switches ∧ t.observeCount = s.observeCount ∧ t.diagLog = s.diagLog ∧
    t.memoryWriteCount = s.memoryWriteCount ∧
    (i.isLoad = false → t.memoryReadCount = s.memoryReadCount) ∧
    (∀ k, k ≠ i.typeKey → t.instructionTypeCounts.get k = s.instructionTypeCounts.get k) ∧
    (∀ k, i.aluKey s.switches.addiAluKey ≠ some k → t.aluOpCounts.lookup k = s.aluOpCounts.lookup k) ∧
    ((t.runState = s.runState ∧ t.faultRecord = s.faultRecord) ∨
      (t.runState = .faulted ∧ t.regs = s.regs))

/-- R107, R181: the frame of `sw`. The bytes it may store to are the four of the cell at its effective index. -/
def Obligations.StoreFrame : Prop :=
  ∀ (s t : State) (rt : Fin 32) (offset : Int) (rs : Fin 32), exec (.sw rt offset rs) s = .next t →
    (∀ r : Fin 32, t.reg r = s.reg r) ∧
    (∀ a : Nat, ¬(4 * effectiveIndex s rs offset ≤ a ∧ (a : Int) < 4 * effectiveIndex s rs offset + 4) →
      t.mem.readByte a = s.mem.readByte a) ∧
    t.pc = s.pc ∧ t.instructionCount = s.instructionCount ∧ t.cycleCount = s.cycleCount ∧
    t.switches = s.switches ∧ t.observeCount = s.observeCount ∧ t.diagLog = s.diagLog ∧
    t.memoryReadCount = s.memoryReadCount ∧ t.aluOpCounts = s.aluOpCounts ∧
    (∀ k, k ≠ .sw → t.instructionTypeCounts.get k = s.instructionTypeCounts.get k) ∧
    ((t.runState = s.runState ∧ t.faultRecord = s.faultRecord) ∨
      (t.runState = .faulted ∧ t.mem = s.mem))

/-- R107, R150, R151: the frame of the control transfers `j` and `beq`, which raise no fault. -/
def Obligations.ControlFrame : Prop :=
  ∀ (i : Instr) (s t : State), i.isControl = true → exec i s = .next t →
    (∀ r : Fin 32, t.reg r = s.reg r) ∧
    (∀ a : Nat, t.mem.readByte a = s.mem.readByte a) ∧
    t.instructionCount = s.instructionCount ∧ t.cycleCount = s.cycleCount ∧
    t.switches = s.switches ∧ t.observeCount = s.observeCount ∧ t.diagLog = s.diagLog ∧
    t.memoryReadCount = s.memoryReadCount ∧ t.memoryWriteCount = s.memoryWriteCount ∧
    t.runState = s.runState ∧ t.faultRecord = s.faultRecord ∧
    (∀ k, k ≠ i.typeKey → t.instructionTypeCounts.get k = s.instructionTypeCounts.get k) ∧
    (∀ k, i.aluKey s.switches.addiAluKey ≠ some k → t.aluOpCounts.lookup k = s.aluOpCounts.lookup k)

/-- R105: each executed instruction increments exactly the counters of its row, and one that faults increments nothing. Where `aluOpCounts` lacks the key `addi`, `get` and `sum` take it as 0, and in states that `State.keysAgree` rules out an `addi` counted under it enters it at 1: the model's choice (log 10). -/
def Obligations.StatisticsFollowTheTable : Prop :=
  ∀ (i : Instr) (s t : State), s.safe → exec i s = .next t →
    (t.safe →
      (∀ k, t.instructionTypeCounts.get k =
        s.instructionTypeCounts.get k + if k = i.typeKey then 1 else 0) ∧
      (∀ k, t.aluOpCounts.get k =
        s.aluOpCounts.get k + if i.aluKey s.switches.addiAluKey = some k then 1 else 0) ∧
      t.memoryReadCount = s.memoryReadCount + (if i.isLoad then 1 else 0) ∧
      t.memoryWriteCount = s.memoryWriteCount + (if i.isStore then 1 else 0)) ∧
    (¬t.safe →
      t.instructionTypeCounts = s.instructionTypeCounts ∧ t.aluOpCounts = s.aluOpCounts ∧
      t.memoryReadCount = s.memoryReadCount ∧ t.memoryWriteCount = s.memoryWriteCount)

/-! ## Addresses and memory -/

/-- R53, R54: the index truncates toward zero: cell 0 is named by byte addresses -3 to 3, cell k > 0 by 4k to 4k+3, and every other address names no cell. -/
def Obligations.EffectiveIndexTruncatesTowardZero : Prop :=
  ∀ (s : State) (rs : Fin 32) (offset : Int),
    (effectiveIndex s rs offset = 0 ↔
      -3 ≤ sval (s.reg rs) + offset ∧ sval (s.reg rs) + offset ≤ 3) ∧
    (∀ k : Int, 0 < k → (effectiveIndex s rs offset = k ↔
      4 * k ≤ sval (s.reg rs) + offset ∧ sval (s.reg rs) + offset ≤ 4 * k + 3)) ∧
    (∀ k : Int, k < 0 → (effectiveIndex s rs offset = k ↔
      4 * k - 3 ≤ sval (s.reg rs) + offset ∧ sval (s.reg rs) + offset ≤ 4 * k)) ∧
    ((cellIndex (effectiveIndex s rs offset) = none) ↔
      sval (s.reg rs) + offset ≤ -4 ∨ 1024 ≤ sval (s.reg rs) + offset)

/-- R53: taking the sum modulo 2^32 instead would change no access: the two indices name the same cell or none. -/
def Obligations.AddressWrapChangesNoAccess : Prop :=
  ∀ (s : State) (rs : Fin 32) (offset : Int), imm16Ok offset →
    cellIndex (truncDiv (sval (word (sval (s.reg rs) + offset))) 4) =
      cellIndex (effectiveIndex s rs offset)

/-- R57: a load of the cell just stored to gives the stored register, and every other cell reads as before. -/
def Obligations.LoadAfterStoreReadsTheStoredWord : Prop :=
  ∀ (s : State) (rt : Fin 32) (offset : Int) (rs : Fin 32), s.mem.wf = true →
    0 ≤ effectiveIndex s rs offset → effectiveIndex s rs offset ≤ 255 →
    ∃ t, exec (.sw rt offset rs) s = .next t ∧
      t.memRead (effectiveIndex s rs offset) = some (s.reg rt) ∧
      (∀ k : Int, k ≠ effectiveIndex s rs offset → t.memRead k = s.memRead k) ∧
      ∀ q : Fin 32, ∃ u, exec (.lw q offset rs) t = .next u ∧ u.reg q = s.reg rt

/-- R60, R247: when a `sw` rewrites the slot that is fetched next, the very next step executes the word stored. -/
def Obligations.StoreIsSeenByTheNextFetch : Prop :=
  ∀ (s : State) (rt : Fin 32) (offset : Int) (rs : Fin 32), s.mem.wf = true → s.fetching →
    0 ≤ s.pc → s.pc ≤ 255 → effectiveIndex s rs offset = s.pc →
    ∃ t, exec (.sw rt offset rs) s = .next t ∧
      step (completeCycle t) =
        finishCycle (execute (decode (s.reg rt)) (s.reg rt) { completeCycle t with
          observeCount := (completeCycle t).observeCount + 1
          pc := s.pc + 1 })

/-! ## The run loop -/

/-- R100, R103: when the word at `pc` decodes to an instruction, the step is `exec` of it on the state with one more `Observe` and `pc` past the word, and then the end of the cycle unless a fault was raised. -/
def Obligations.StepRunsTheDecodedInstruction : Prop :=
  ∀ (s t : State) (w : Word) (i : Instr), s.fetching → s.memRead s.pc = some w →
    decode w = .instr i →
    exec i { s with observeCount := s.observeCount + 1, pc := s.pc + 1 } = .next t →
    step s = .next (if t.runState = .faulted then t else
      { t with cycleCount := t.cycleCount + 1, runState := .running })

/-- R102: the fetch reads `M[pc]` and adds one to `pc`, or raises `FetchOutOfBounds` and leaves `pc`; it is no memory read. Only a negative `pc` can fault (R27). `observeCount` is the model's own field (log 7). -/
def Obligations.FetchReadsTheCellOrFaults : Prop :=
  ∀ s : State, s.fetching →
    (0 ≤ s.pc ∧ s.pc ≤ 255 →
      step s = finishCycle (execute (decode (s.mem.readCell s.pc.toNat)) (s.mem.readCell s.pc.toNat)
        { s with observeCount := s.observeCount + 1, pc := s.pc + 1 })) ∧
    (s.pc < 0 ∨ 255 < s.pc →
      step s = .next { s with
        observeCount := s.observeCount + 1
        runState := .faulted
        faultRecord := some { cause := .fetchOutOfBounds, faultPc := s.pc, info := s.pc } }) ∧
    (s.countInRange → s.pc ≤ 255)

/-- R104: an unrecognized word is a reported no-op, or raises `UnrecognizedFunctFault` under `UNKNOWN_FUNCT_MODE = fault`. The equations give the whole next state, the events in the model's own fields (log 7). -/
def Obligations.UnrecognizedWordIsAReportedNoOp : Prop :=
  ∀ (s : State) (w : Word), s.fetching → s.memRead s.pc = some w →
    (decode w = .unrecognizedOpcode →
      step s = .next { s with
        pc := s.pc + 1
        cycleCount := s.cycleCount + 1
        runState := .running
        observeCount := s.observeCount + 1
        diagLog := s.diagLog ++ [{ code := .unrecognizedOpcode, faultPc := s.pc, word := w }] }) ∧
    (decode w = .unrecognizedFunct → s.switches.unknownFunctMode = .nop →
      step s = .next { s with
        pc := s.pc + 1
        cycleCount := s.cycleCount + 1
        runState := .running
        observeCount := s.observeCount + 1
        diagLog := s.diagLog ++ [{ code := .unrecognizedFunct, faultPc := s.pc, word := w }] }) ∧
    (decode w = .unrecognizedFunct → s.switches.unknownFunctMode = .fault →
      step s = .next { s with
        pc := s.pc + 1
        observeCount := s.observeCount + 1
        runState := .faulted
        faultRecord := some
          { cause := .unrecognizedFunctFault, faultPc := s.pc, info := (w.toNat : Int) } })

/-- R101: the halt writes the run state and nothing else, and emits the one final `Observe`, of the halted state, which the model's own field `observeCount` counts (log 7). -/
def Obligations.HaltLeavesEverythingElse : Prop :=
  ∀ s : State, s.live → (s.instructionCount : Int) ≤ s.pc →
    step s = .next { s with runState := .halted, observeCount := s.observeCount + 1 } ∧
    stepEvents s = [.observe { s.snapshot with runState := .halted }]

/-- R110: `Halted` and `Faulted` have no step, which is the model's stuck outcome (log 5), and no event. -/
def Obligations.TerminalStatesHaveNoStep : Prop :=
  ∀ s : State,
    (s.runState = .halted → step s = .fault .noStepHalted ∧ stepEvents s = []) ∧
    (s.runState = .faulted → step s = .fault .noStepFaulted ∧ stepEvents s = [])

/-- R108: every `Ready` or `Running` state has a next state, and no step is ever refused. -/
def Obligations.EveryLiveStateSteps : Prop :=
  (∀ s : State, s.live → ∃ t, step s = .next t) ∧
  (∀ (s : State) (r : Refusal), step s ≠ .refused r) ∧
  (∀ (i : Instr) (s : State), ∃ t, exec i s = .next t)

/-- R32, R110: no step leads back to `Ready`. -/
def Obligations.NoStepReentersReady : Prop :=
  ∀ s t : State, step s = .next t → t.runState ≠ .ready

/-- R27, R246: no step changes the program's length, whatever it stores; nor the switches, which are fixed for a run (R35). -/
def Obligations.ProgramLengthIsFixed : Prop :=
  ∀ s t : State, step s = .next t →
    t.instructionCount = s.instructionCount ∧ t.switches = s.switches

/-- R28, R100: a cycle that completes adds exactly one to `cycleCount`, and a halt or a fault adds none. -/
def Obligations.CycleCountCountsCompletedCycles : Prop :=
  ∀ s t : State, step s = .next t →
    t.cycleCount = s.cycleCount + (if t.runState = .running then 1 else 0)

/-- R28 to R31: no step makes a counter smaller. A key missing from `aluOpCounts` is read as 0 (log 10). -/
def Obligations.CountersNeverDecrease : Prop :=
  ∀ s t : State, step s = .next t →
    s.cycleCount ≤ t.cycleCount ∧ s.memoryReadCount ≤ t.memoryReadCount ∧
    s.memoryWriteCount ≤ t.memoryWriteCount ∧
    (∀ k, s.aluOpCounts.get k ≤ t.aluOpCounts.get k) ∧
    (∀ k, s.instructionTypeCounts.get k ≤ t.instructionTypeCounts.get k)

/-! ## Faults and events -/

/-- R204, R206: a fault changes no register, cell or counter, records its slot, and emits no event of its own and no diagnostic. R110, R205: it ends the run, in the model's form of a state with no step, the outcome `noStepFaulted` (log 5). -/
def Obligations.FaultsArePrecise : Prop :=
  ∀ s t : State, step s = .next t → t.runState = .faulted →
    t.regs = s.regs ∧ t.mem = s.mem ∧ t.cycleCount = s.cycleCount ∧
    t.aluOpCounts = s.aluOpCounts ∧ t.instructionTypeCounts = s.instructionTypeCounts ∧
    t.memoryReadCount = s.memoryReadCount ∧ t.memoryWriteCount = s.memoryWriteCount ∧
    t.instructionCount = s.instructionCount ∧ t.diagLog = s.diagLog ∧
    stepEvents s = [.observe s.snapshot] ∧
    step t = .fault .noStepFaulted ∧
    ∃ r, t.faultRecord = some r ∧
      if r.cause = .fetchOutOfBounds then r.faultPc = s.pc ∧ r.info = s.pc ∧ t.pc = s.pc
      else r.faultPc = s.pc ∧ t.pc = s.pc + 1

/-- R201: `ArithmeticOverflow` and `UnrecognizedFunctFault` need their switch, so at the default switches only codes 1 to 3 occur; `and`, `or`, `slt`, `beq` and `j` raise no fault. -/
def Obligations.DefaultSwitchesAllowThreeCauses : Prop :=
  (∀ s t : State, step s = .next t → t.runState = .faulted → ∃ r, t.faultRecord = some r ∧
    (r.cause = .arithmeticOverflow → s.switches.overflowMode = .fault) ∧
    (r.cause = .unrecognizedFunctFault → s.switches.unknownFunctMode = .fault) ∧
    (s.switches = Config.Switches.default → r.cause.number ≤ 3)) ∧
  (∀ (s : State) (a b c sh : Fin 32) (n : Int) (k : Nat) (t : State), s.safe →
    (exec (.and a b c sh) s = .next t ∨ exec (.or a b c sh) s = .next t ∨
      exec (.slt a b c sh) s = .next t ∨ exec (.beq a b n) s = .next t ∨ exec (.j k) s = .next t) →
    t.safe)

/-- R7, R100, R101, R203, R206: each step emits one `Observe`, before the fetch or of the halted state, then at most one `Diag`, and none with a fault; the log of diagnostics grows by exactly those. -/
def Obligations.StepEventsAreOneObserveThenDiagnostics : Prop :=
  ∀ s t : State, step s = .next t → ∃ ds : List Diag,
    ds.length ≤ 1 ∧ t.diagLog = s.diagLog ++ ds ∧ t.observeCount = s.observeCount + 1 ∧
    (t.runState = .faulted → ds = []) ∧ (t.runState = .halted → ds = []) ∧
    stepEvents s =
      .observe (if t.runState = .halted then t.snapshot else s.snapshot) :: ds.map .diag

/-! ## Invariants that every step keeps -/

/-- R26 (log 2): memory keeps its canonical form, so equal memories are equal data and no byte outside the 256 cells is ever listed. -/
def Obligations.StepKeepsMemoryCanonical : Prop :=
  ∀ s t : State, s.mem.wf = true → step s = .next t → t.mem.wf = true

/-- R24, R25: `pc` stays in `[-32767, 2^26 - 1]`. -/
def Obligations.StepKeepsPcInRange : Prop :=
  ∀ s t : State, s.pcInRange → step s = .next t → t.pcInRange

/-- R109: every completed cycle is counted by its instruction's key or by a diagnostic, and the ALU and memory counters agree with the instruction counters. Where `aluOpCounts` lacks the key `addi`, `get` and `sum` take it as 0, and in states that `State.keysAgree` rules out an `addi` counted under it enters it at 1: the model's choice (log 10). -/
def Obligations.StepKeepsCountersAgreeing : Prop :=
  ∀ s t : State, s.countersAgree → step s = .next t → t.countersAgree

/-- R100, R101, R204: one `Observe` per completed cycle and one more in a terminal state. -/
def Obligations.StepKeepsObserveCount : Prop :=
  ∀ s t : State, s.observesAgree → step s = .next t → t.observesAgree

/-- R32, R33: a fault record exists exactly in `Faulted`, and `Ready` has completed no cycle. -/
def Obligations.StepKeepsFaultRecord : Prop :=
  ∀ s t : State, s.recordAgrees → s.readyIsInitial → step s = .next t →
    t.recordAgrees ∧ t.readyIsInitial

/-- R241: every invariant holds at reset. -/
def Obligations.ResetMeetsTheInvariants : Prop :=
  State.reset.mem.wf = true ∧ State.reset.pcInRange ∧ State.reset.countInRange ∧
  State.reset.countersAgree ∧ State.reset.keysAgree ∧ State.reset.observesAgree ∧
  State.reset.recordAgrees ∧ State.reset.readyIsInitial

/-- R27, R240, R241: every invariant holds after every launch, whatever the image, the fill and the switches. -/
def Obligations.LaunchMeetsTheInvariants : Prop :=
  ∀ (sw : Config.Switches) (fill : InitFill) (bytes : List Byte) (s : State),
    launch sw fill bytes = .ok s →
    s.mem.wf = true ∧ s.pcInRange ∧ s.countInRange ∧ s.countersAgree ∧ s.keysAgree ∧
    s.observesAgree ∧ s.recordAgrees ∧ s.readyIsInitial

/-- R36, R37: no program can read a counter, the run state, the fault record or the events: two live states that agree on registers, memory, `pc`, length and switches step to states that agree on them, end the run in the same way and report the same. -/
def Obligations.CountersAndEventsDoNotInfluenceTheProgram : Prop :=
  ∀ s s' t : State, s.live → s'.live → s.sameView s' → step s = .next t →
    ∃ t', step s' = .next t' ∧ t.sameView t' ∧ t.runState = t'.runState ∧
      (t.runState = .faulted → t.faultRecord = t'.faultRecord) ∧
      t.diagLog.drop s.diagLog.length = t'.diagLog.drop s'.diagLog.length

/-! ## Launch and reset -/

/-- R240: the loader reads big-endian words up to the sentinel or the end of input into consecutive cells from 0, and the cells beyond hold the fill (R241). -/
def Obligations.LoaderPlacesTheProgram : Prop :=
  ∀ (sw : Config.Switches) (fill : InitFill) (ws : List Word) (tail : List Byte),
    (∀ w ∈ ws, w ≠ 0#32) → ws.length ≤ 256 → (tail = [] ∨ ∃ rest, tail = 0 :: 0 :: 0 :: 0 :: rest) →
    ∃ s, launch sw fill
        (ws.flatMap (fun w => [wordByte w 0, wordByte w 1, wordByte w 2, wordByte w 3]) ++ tail) = .ok s ∧
      s.instructionCount = ws.length ∧
      (∀ (k : Nat) (h : k < ws.length), s.memRead k = some ws[k]) ∧
      (fill = .zero → ∀ k : Nat, ws.length ≤ k → k < 256 → s.memRead k = some 0#32) ∧
      (∀ (regs : Vector Word 32) (cells : Vector Word 256), fill = .arbitrary regs cells →
        ∀ (k : Nat) (h : k < 256), ws.length ≤ k → s.memRead k = some cells[k])

/-- R202: a trailing group of 1 to 3 bytes, or more than 256 non-zero words, refuses the launch. -/
def Obligations.LoaderRefusesMalformedInput : Prop :=
  ∀ (sw : Config.Switches) (fill : InitFill) (ws : List Word) (tail : List Byte),
    (∀ w ∈ ws, w ≠ 0#32) →
    (ws.length ≤ 256 ∧ 1 ≤ tail.length ∧ tail.length ≤ 3 ∨ 257 ≤ ws.length) →
    launch sw fill
      (ws.flatMap (fun w => [wordByte w 0, wordByte w 1, wordByte w 2, wordByte w 3]) ++ tail) =
        .error .malformedInput

/-- R241, R242: the state after a launch that is not refused, but for memory and `instructionCount`, which R240 gives. -/
def Obligations.LaunchLeavesTheResetState : Prop :=
  ∀ (sw : Config.Switches) (fill : InitFill) (bytes : List Byte) (s : State),
    launch sw fill bytes = .ok s →
    s.pc = 0 ∧ s.cycleCount = 0 ∧
    (∀ k, s.aluOpCounts.lookup k = if k ∈ aluKeySet sw.addiAluKey then some 0 else none) ∧
    (∀ k, s.instructionTypeCounts.get k = 0) ∧ s.memoryReadCount = 0 ∧ s.memoryWriteCount = 0 ∧
    s.runState = .ready ∧ s.faultRecord = none ∧ s.switches = sw ∧ s.observeCount = 0 ∧
    s.diagLog = [] ∧
    (fill = .zero → ∀ r : Fin 32, s.reg r = 0#32) ∧
    (∀ (regs : Vector Word 32) (cells : Vector Word 256), fill = .arbitrary regs cells → s.regs = regs)

/-- R241 at the default switches and the empty input (log 4): every value the spec states for reset; the model's own fields `observeCount` and `diagLog` start at zero and empty (log 7). -/
def Obligations.ResetStateIsTheEmptyLaunch : Prop :=
  launch Config.Switches.default .zero [] = .ok State.reset ∧
  (∀ r : Fin 32, State.reset.reg r = 0#32) ∧
  (∀ k : Fin 256, State.reset.memRead (k.val : Int) = some 0#32) ∧
  State.reset.instructionCount = 0 ∧ State.reset.pc = 0 ∧ State.reset.cycleCount = 0 ∧
  (∀ k, State.reset.aluOpCounts.lookup k = some 0) ∧ (∀ k, State.reset.instructionTypeCounts.get k = 0) ∧
  State.reset.memoryReadCount = 0 ∧ State.reset.memoryWriteCount = 0 ∧
  State.reset.runState = .ready ∧ State.reset.faultRecord = none ∧
  State.reset.observeCount = 0 ∧ State.reset.diagLog = []

/-- R111: a fetched `beq r0, r0, -1` (the word `0x1000FFFF`) branches to its own slot for ever: after any number of steps the core can step there again, with one cycle and one `Observe` (the model's `observeCount`, log 7) per step. -/
def Obligations.BranchToItselfNeverEnds : Prop :=
  ∀ (s : State) (n : Nat), s.fetching → s.memRead s.pc = some 0x1000FFFF#32 →
    ∃ t : State, Sys2Proof.core.run n s = .next t ∧ t.fetching ∧ t.pc = s.pc ∧ t.regs = s.regs ∧
      t.mem = s.mem ∧ t.cycleCount = s.cycleCount + n ∧ t.observeCount = s.observeCount + n

/-! ## The key set of `aluOpCounts` -/

/-- R29, D10: the keys of `aluOpCounts` stay those of the mode's key set, with `addi` under `ADDI_ALU_KEY = addi` and without it under `add`. -/
def Obligations.StepKeepsAluKeySet : Prop :=
  ∀ s t : State, s.keysAgree → step s = .next t → t.keysAgree

/-- R29: the two key sets, every key at 0 after a launch, which key each instruction increments (`Instr.aluKey`: `beq` increments `sub`, `addi` the mode's key, and `lw`, `sw` and `j` none), and that a step removes no key and makes no counter smaller. Where the key `addi` is missing although the mode counts under it, in states that `State.keysAgree` rules out, that the key enters the map at 1 is the model's choice (log 10); R29's key set is closed. -/
def Obligations.AluOpCountsFollowTheKeySet : Prop :=
  aluKeySet .addi = [.add, .and, .or, .sub, .slt, .addi] ∧
  aluKeySet .add = [.add, .and, .or, .sub, .slt] ∧
  (∀ (sw : Config.Switches) (fill : InitFill) (bytes : List Byte) (s : State),
    launch sw fill bytes = .ok s →
    ∀ k, s.aluOpCounts.lookup k = if k ∈ aluKeySet sw.addiAluKey then some 0 else none) ∧
  (∀ (i : Instr) (s t : State), s.safe → exec i s = .next t → t.safe →
    ∀ k, t.aluOpCounts.lookup k =
      if i.aluKey s.switches.addiAluKey = some k
      then some (s.aluOpCounts.get k + 1) else s.aluOpCounts.lookup k) ∧
  (∀ s t : State, step s = .next t → ∀ k n, s.aluOpCounts.lookup k = some n →
    ∃ m, t.aluOpCounts.lookup k = some m ∧ n ≤ m)
end

