-- ==== Sys2Proof/Laws/Decode.lean ====
section
/-! SUPPORT. The fields of an encoded word, and the ranges of decoded operands (spec/30_encoding.md R71 to
R75, R84). -/

namespace Sys2Proof

theorem field_def (w : Word) (hi lo : Nat) :
    field w hi lo = w.toNat / 2 ^ lo % 2 ^ (hi - lo + 1) := rfl

theorem field5_val (w : Word) (lo : Nat) : (field5 w lo).val = w.toNat / 2 ^ lo % 32 := by
  simp only [field5, field, Nat.add_sub_cancel_left]
  omega

theorem opcodeField_eq (w : Word) : opcodeField w = w.toNat / 67108864 := by
  have := w.isLt
  simp only [opcodeField, field]
  omega

theorem functField_eq (w : Word) : functField w = w.toNat % 64 := by
  simp only [functField, field]
  omega

theorem immField_eq (w : Word) : immField w = w.toNat % 65536 := by
  simp only [immField, field]
  omega

theorem targetField_eq (w : Word) : targetField w = w.toNat % 67108864 := by
  simp only [targetField, field]
  omega

theorem rsField_val (w : Word) : (rsField w).val = w.toNat / 2097152 % 32 := field5_val w 21
theorem rtField_val (w : Word) : (rtField w).val = w.toNat / 65536 % 32 := field5_val w 16
theorem rdField_val (w : Word) : (rdField w).val = w.toNat / 2048 % 32 := field5_val w 11
theorem shamtField_val (w : Word) : (shamtField w).val = w.toNat / 64 % 32 := field5_val w 6

/-- The range of a decoded immediate (R74). -/
theorem sext16_range {v : Nat} (h : v < 65536) : imm16Ok (sext16 v) := by
  simp only [imm16Ok, sext16]
  split <;> omega

/-- The immediate field of `sext_16(v)` is `v` again (R74, R84). -/
theorem sext16_emod {v : Nat} (h : v < 65536) : (sext16 v % 65536).toNat = v := by
  simp only [sext16]
  split <;> omega

theorem immField_range (w : Word) : imm16Ok (sext16 (immField w)) :=
  sext16_range (by rw [immField_eq]; omega)

theorem targetField_range (w : Word) : target26Ok (targetField w) := by
  rw [targetField_eq, target26Ok]; omega

/-! ## The value of an encoded word -/

theorem encodeR_toNat (rd rs rt shamt : Fin 32) {funct : Nat} (h : funct < 64) :
    (encodeR rd rs rt shamt funct).toNat =
      rs.val * 2097152 + rt.val * 65536 + rd.val * 2048 + shamt.val * 64 + funct := by
  have := rd.isLt; have := rs.isLt; have := rt.isLt; have := shamt.isLt
  simp only [encodeR, BitVec.toNat_ofNat]
  omega

theorem encodeI_toNat {opcode : Nat} (rs rt : Fin 32) (imm : Int) (h : opcode < 64) :
    (encodeI opcode rs rt imm).toNat =
      opcode * 67108864 + rs.val * 2097152 + rt.val * 65536 + (imm % 65536).toNat := by
  have := rs.isLt; have := rt.isLt
  simp only [encodeI, BitVec.toNat_ofNat]
  omega

theorem encodeJ_toNat {target : Nat} (h : target26Ok target) :
    (encodeJ target).toNat = 134217728 + target := by
  simp only [encodeJ, BitVec.toNat_ofNat]
  simp only [target26Ok] at h
  omega

/-! ## The fields of an encoded word (R71, R73) -/

/-- Every field of an R-type word is the operand put there. -/
theorem fields_encodeR (rd rs rt shamt : Fin 32) {funct : Nat} (h : funct < 64) :
    opcodeField (encodeR rd rs rt shamt funct) = 0 ∧ functField (encodeR rd rs rt shamt funct) = funct ∧
    rdField (encodeR rd rs rt shamt funct) = rd ∧ rsField (encodeR rd rs rt shamt funct) = rs ∧
    rtField (encodeR rd rs rt shamt funct) = rt ∧ shamtField (encodeR rd rs rt shamt funct) = shamt := by
  have := rd.isLt; have := rs.isLt; have := rt.isLt; have := shamt.isLt
  simp only [Fin.ext_iff, opcodeField_eq, functField_eq, rdField_val, rsField_val, rtField_val,
    shamtField_val, encodeR_toNat rd rs rt shamt h]
  omega

/-- Every field of an I-type word is the operand put there. -/
theorem fields_encodeI {opcode : Nat} (rs rt : Fin 32) (imm : Int) (h : opcode < 64) :
    opcodeField (encodeI opcode rs rt imm) = opcode ∧ rsField (encodeI opcode rs rt imm) = rs ∧
    rtField (encodeI opcode rs rt imm) = rt ∧
    immField (encodeI opcode rs rt imm) = (imm % 65536).toNat := by
  have := rs.isLt; have := rt.isLt
  simp only [Fin.ext_iff, opcodeField_eq, immField_eq, rsField_val, rtField_val,
    encodeI_toNat rs rt imm h]
  omega

/-- Every field of a J-type word is the operand put there. -/
theorem fields_encodeJ {target : Nat} (h : target26Ok target) :
    opcodeField (encodeJ target) = 2 ∧ targetField (encodeJ target) = target := by
  simp only [opcodeField_eq, targetField_eq, encodeJ_toNat h]
  simp only [target26Ok] at h
  omega

/-! ## What the decoder answers, by opcode and function code (R76, R77) -/

theorem decode_of_opcode_zero {w : Word} (h : opcodeField w = 0) : decode w = decodeFunct w := by
  simp only [decode, h]

/-- Everything the decoder can answer (R83). -/
theorem decode_cases (w : Word) :
    (opcodeField w = 0 ∧ decode w = decodeFunct w) ∨
    (opcodeField w = 2 ∧ decode w = .instr (.j (targetField w))) ∨
    (opcodeField w = 4 ∧ decode w = .instr (.beq (rsField w) (rtField w) (sext16 (immField w)))) ∨
    (opcodeField w = 8 ∧ decode w = .instr (.addi (rtField w) (rsField w) (sext16 (immField w)))) ∨
    (opcodeField w = 35 ∧ decode w = .instr (.lw (rtField w) (sext16 (immField w)) (rsField w))) ∨
    (opcodeField w = 43 ∧ decode w = .instr (.sw (rtField w) (sext16 (immField w)) (rsField w))) ∨
    ((opcodeField w ≠ 0 ∧ opcodeField w ≠ 2 ∧ opcodeField w ≠ 4 ∧ opcodeField w ≠ 8 ∧
      opcodeField w ≠ 35 ∧ opcodeField w ≠ 43) ∧ decode w = .unrecognizedOpcode) := by
  unfold decode
  split <;> simp_all

/-- Everything the function-code map can answer (R77). -/
theorem decodeFunct_cases (w : Word) :
    (functField w = 32 ∧
      decodeFunct w = .instr (.add (rdField w) (rsField w) (rtField w) (shamtField w))) ∨
    (functField w = 34 ∧
      decodeFunct w = .instr (.sub (rdField w) (rsField w) (rtField w) (shamtField w))) ∨
    (functField w = 36 ∧
      decodeFunct w = .instr (.and (rdField w) (rsField w) (rtField w) (shamtField w))) ∨
    (functField w = 37 ∧
      decodeFunct w = .instr (.or (rdField w) (rsField w) (rtField w) (shamtField w))) ∨
    (functField w = 42 ∧
      decodeFunct w = .instr (.slt (rdField w) (rsField w) (rtField w) (shamtField w))) ∨
    ((functField w ≠ 32 ∧ functField w ≠ 34 ∧ functField w ≠ 36 ∧ functField w ≠ 37 ∧
      functField w ≠ 42) ∧ decodeFunct w = .unrecognizedFunct) := by
  unfold decodeFunct
  split <;> simp_all

/-! ## Match and mask (R79) -/

theorem and_opcodeMask (w : Word) : w &&& 0xFC000000#32 = (w >>> 26) <<< 26 := by
  apply BitVec.eq_of_getLsbD_eq
  intro i hi
  simp only [BitVec.getLsbD_and, BitVec.getLsbD_shiftLeft, BitVec.getLsbD_ushiftRight]
  interval_cases i <;> simp

/-- The mask `0xFC000000` selects on the opcode. -/
theorem and_opcodeMask_eq_iff (w : Word) {opcode : Nat} (h : opcode < 64) :
    w &&& 0xFC000000#32 = BitVec.ofNat 32 (opcode * 67108864) ↔ opcodeField w = opcode := by
  have := w.isLt
  rw [opcodeField_eq, and_opcodeMask, ← BitVec.toNat_inj]
  simp only [BitVec.toNat_shiftLeft, BitVec.toNat_ushiftRight, BitVec.toNat_ofNat,
    Nat.shiftRight_eq_div_pow, Nat.shiftLeft_eq]
  omega

theorem and_functMask_toNat (w : Word) :
    (w &&& 0xFC00003F#32).toNat = w.toNat / 67108864 * 67108864 + w.toNat % 64 := by
  have hw := w.isLt
  have split : w &&& 0xFC00003F#32 = (w &&& 0xFC000000#32) ||| (w &&& 0x3F#32) := by
    rw [← BitVec.and_or_distrib_left]; rfl
  have low : (w &&& 0x3F#32).toNat = w.toNat % 64 := by
    rw [BitVec.toNat_and]; exact Nat.and_two_pow_sub_one_eq_mod w.toNat 6
  rw [split, and_opcodeMask, BitVec.toNat_or, low]
  simp only [BitVec.toNat_shiftLeft, BitVec.toNat_ushiftRight, Nat.shiftRight_eq_div_pow,
    Nat.shiftLeft_eq]
  rw [show w.toNat / 2 ^ 26 * 2 ^ 26 % 2 ^ 32 = w.toNat / 2 ^ 26 * 2 ^ 26 from by omega,
    ← Nat.shiftLeft_eq, ← Nat.shiftLeft_add_eq_or_of_lt (by omega), Nat.shiftLeft_eq]
  norm_num

/-- The mask `0xFC00003F` with a match below 64 selects on opcode 0 and the function code. -/
theorem and_functMask_eq_iff (w : Word) {funct : Nat} (h : funct < 64) :
    w &&& 0xFC00003F#32 = BitVec.ofNat 32 funct ↔ opcodeField w = 0 ∧ functField w = funct := by
  have := w.isLt
  rw [opcodeField_eq, functField_eq, ← BitVec.toNat_inj, and_functMask_toNat]
  simp only [BitVec.toNat_ofNat]
  omega

end Sys2Proof
end

