-- ==== Sys2Proof/Laws/Memory.lean ====
section
/-! SUPPORT. The laws of memory: the canonical form is kept, a read after a write to the same place gives
the value written, and a write leaves every other place alone (spec/20_memory.md R52, R57). -/

namespace Sys2Proof.Machine

/-! ## Bytes -/

theorem Memory.wfFrom_le {lo lo' : Nat} (hle : lo ≤ lo') :
    ∀ {m : Memory}, Memory.wfFrom lo' m = true → Memory.wfFrom lo m = true
  | [], _ => rfl
  | (b, v) :: rest, h => by
    simp only [Memory.wfFrom, Bool.and_eq_true, decide_eq_true_eq] at h ⊢
    exact ⟨⟨⟨hle.trans h.1.1.1, h.1.1.2⟩, h.1.2⟩, h.2⟩

/-- Below the first listed address every byte is unlisted. -/
theorem Memory.readByte_lt_first {a : Nat} :
    ∀ {m : Memory} {lo : Nat}, Memory.wfFrom lo m = true → a < lo →
      m.readByte a = Config.unlistedByte
  | [], _, _, _ => rfl
  | (b, v) :: rest, lo, h, ha => by
    simp only [Memory.wfFrom, Bool.and_eq_true, decide_eq_true_eq] at h
    have hne : a ≠ b := by omega
    simp only [Memory.readByte, hne, if_false]
    exact Memory.readByte_lt_first h.2 (by omega)

/-- A write leaves every other byte alone, whatever the form of the list. -/
theorem Memory.readByte_writeByte_other {a b : Nat} (v : Byte) (hne : b ≠ a) :
    ∀ m : Memory, (m.writeByte a v).readByte b = m.readByte b
  | [] => by
    simp only [Memory.writeByte]
    split <;> simp [Memory.readByte, hne]
  | (c, u) :: rest => by
    simp only [Memory.writeByte]
    split
    · split <;> simp [Memory.readByte, hne]
    · split
      · rename_i hac
        subst hac
        split <;> simp [Memory.readByte, hne]
      · simp only [Memory.readByte, Memory.readByte_writeByte_other v hne rest]

/-- A read after a write to the same byte gives the value written. -/
theorem Memory.readByte_writeByte_same {a : Nat} (v : Byte) :
    ∀ {m : Memory} {lo : Nat}, Memory.wfFrom lo m = true → (m.writeByte a v).readByte a = v
  | [], _, _ => by
    simp only [Memory.writeByte]
    split
    · next h => simp [Memory.readByte, h]
    · simp [Memory.readByte]
  | (c, u) :: rest, lo, h => by
    simp only [Memory.wfFrom, Bool.and_eq_true, decide_eq_true_eq] at h
    simp only [Memory.writeByte]
    split
    · next hac =>
      split
      · next hv =>
        have hne : a ≠ c := by omega
        simp only [Memory.readByte, hne, if_false, hv]
        exact Memory.readByte_lt_first h.2 (by omega)
      · simp [Memory.readByte]
    · split
      · next hac =>
        subst hac
        split
        · next hv => rw [hv]; exact Memory.readByte_lt_first h.2 (by omega)
        · simp [Memory.readByte]
      · next hac =>
        simp only [Memory.readByte, hac, if_false]
        exact Memory.readByte_writeByte_same v h.2

/-- A write inside the array keeps the canonical form. -/
theorem Memory.wfFrom_writeByte {a : Nat} (v : Byte) (ha : a < Memory.numBytes) :
    ∀ {m : Memory} {lo : Nat}, lo ≤ a → Memory.wfFrom lo m = true →
      Memory.wfFrom lo (m.writeByte a v) = true
  | [], lo, hlo, _ => by
    simp only [Memory.writeByte]
    split
    · rfl
    · next hv => simp [Memory.wfFrom, hlo, ha, hv]
  | (c, u) :: rest, lo, hlo, h => by
    have h0 := h
    simp only [Memory.wfFrom, Bool.and_eq_true, decide_eq_true_eq] at h
    simp only [Memory.writeByte]
    split
    · next hac =>
      split
      · exact h0
      · next hv =>
        simp only [Memory.wfFrom, Bool.and_eq_true, decide_eq_true_eq]
        exact ⟨⟨⟨hlo, ha⟩, hv⟩, ⟨⟨by omega, h.1.1.2⟩, h.1.2⟩, h.2⟩
    · split
      · next hac =>
        subst hac
        split
        · exact Memory.wfFrom_le (by omega) h.2
        · next hv =>
          simp only [Memory.wfFrom, Bool.and_eq_true, decide_eq_true_eq]
          exact ⟨⟨⟨hlo, ha⟩, hv⟩, h.2⟩
      · next hac1 hac2 =>
        simp only [Memory.wfFrom, Bool.and_eq_true, decide_eq_true_eq]
        exact ⟨h.1, Memory.wfFrom_writeByte v ha (by omega) h.2⟩

theorem Memory.wf_writeByte {a : Nat} {m : Memory} (v : Byte) (ha : a < Memory.numBytes)
    (h : m.wf = true) : (m.writeByte a v).wf = true :=
  Memory.wfFrom_writeByte v ha (Nat.zero_le a) h

/-! ## Cells -/

/-- With nothing listed every byte is unlisted. -/
@[simp] theorem Memory.readByte_nil (a : Nat) : Memory.readByte [] a = Config.unlistedByte := rfl

/-- With nothing listed every cell is 0 (10_state.md R26). -/
@[simp] theorem Memory.readCell_nil (k : Nat) : Memory.readCell [] k = 0#32 := by
  simp only [Memory.readCell, Memory.readByte_nil]
  decide

/-- A cell's four bytes, joined, are the cell (R55). -/
@[simp] theorem joinBytes_wordByte (w : Word) :
    joinBytes (wordByte w 0) (wordByte w 1) (wordByte w 2) (wordByte w 3) = w := by
  apply BitVec.eq_of_toNat_eq
  have := w.isLt
  simp only [joinBytes, wordByte, BitVec.toNat_ofNat]
  norm_num
  omega

/-- Splitting a joined cell gives its bytes back (R55). -/
theorem wordByte_joinBytes (b0 b1 b2 b3 : Byte) :
    wordByte (joinBytes b0 b1 b2 b3) 0 = b0 ∧ wordByte (joinBytes b0 b1 b2 b3) 1 = b1 ∧
    wordByte (joinBytes b0 b1 b2 b3) 2 = b2 ∧ wordByte (joinBytes b0 b1 b2 b3) 3 = b3 := by
  have := b0.isLt; have := b1.isLt; have := b2.isLt; have := b3.isLt
  refine ⟨?_, ?_, ?_, ?_⟩ <;> apply BitVec.eq_of_toNat_eq <;>
    simp only [joinBytes, wordByte, BitVec.toNat_ofNat] <;> norm_num <;> omega

/-- A write of cell `k` leaves every byte outside it alone. -/
theorem Memory.readByte_writeCell_other (m : Memory) (k : Nat) (v : Word) {a : Nat}
    (ha : a < 4 * k ∨ 4 * k + 4 ≤ a) : (m.writeCell k v).readByte a = m.readByte a := by
  simp only [Memory.writeCell]
  rw [Memory.readByte_writeByte_other _ (by omega), Memory.readByte_writeByte_other _ (by omega),
    Memory.readByte_writeByte_other _ (by omega), Memory.readByte_writeByte_other _ (by omega)]

/-- A write of cell `k` leaves every other cell alone. -/
theorem Memory.readCell_writeCell_other (m : Memory) {k q : Nat} (v : Word) (h : q ≠ k) :
    (m.writeCell k v).readCell q = m.readCell q := by
  simp only [Memory.readCell]
  rw [Memory.readByte_writeCell_other m k v (by omega), Memory.readByte_writeCell_other m k v (by omega),
    Memory.readByte_writeCell_other m k v (by omega), Memory.readByte_writeCell_other m k v (by omega)]

/-- A write of a cell of the array keeps the canonical form. -/
theorem Memory.wf_writeCell {m : Memory} {k : Nat} (v : Word) (hk : k < 256) (h : m.wf = true) :
    (m.writeCell k v).wf = true := by
  have hb : ∀ j, j < 4 → 4 * k + j < Memory.numBytes := by
    intro j hj
    simp only [Memory.numBytes, Config.numCells]
    omega
  exact Memory.wf_writeByte _ (hb 3 (by omega)) (Memory.wf_writeByte _ (hb 2 (by omega))
    (Memory.wf_writeByte _ (hb 1 (by omega)) (Memory.wf_writeByte _ (hb 0 (by omega)) h)))

/-- A read after a write of the same cell gives the value written. -/
theorem Memory.readCell_writeCell_same {m : Memory} {k : Nat} (v : Word) (hk : k < 256)
    (h : m.wf = true) : (m.writeCell k v).readCell k = v := by
  have hb : ∀ j, j < 4 → 4 * k + j < Memory.numBytes := by
    intro j hj
    simp only [Memory.numBytes, Config.numCells]
    omega
  have w0 := Memory.wf_writeByte (wordByte v 0) (hb 0 (by omega)) h
  have w1 := Memory.wf_writeByte (wordByte v 1) (hb 1 (by omega)) w0
  have w2 := Memory.wf_writeByte (wordByte v 2) (hb 2 (by omega)) w1
  simp only [Nat.add_zero] at w0 w1 w2
  simp only [Memory.readCell, Memory.writeCell]
  rw [Memory.readByte_writeByte_same _ w2,
    Memory.readByte_writeByte_other (b := 4 * k + 2) _ (by omega), Memory.readByte_writeByte_same _ w1,
    Memory.readByte_writeByte_other (b := 4 * k + 1) _ (by omega),
    Memory.readByte_writeByte_other (b := 4 * k + 1) _ (by omega), Memory.readByte_writeByte_same _ w0,
    Memory.readByte_writeByte_other (b := 4 * k) _ (by omega),
    Memory.readByte_writeByte_other (b := 4 * k) _ (by omega),
    Memory.readByte_writeByte_other (b := 4 * k) _ (by omega), Memory.readByte_writeByte_same _ h,
    joinBytes_wordByte]

/-! ## The primitives of R52 -/

theorem cellIndex_of_inside {k : Int} (h : 0 ≤ k ∧ k ≤ 255) : cellIndex k = some k.toNat := if_pos h

theorem cellIndex_of_outside {k : Int} (h : ¬(0 ≤ k ∧ k ≤ 255)) : cellIndex k = none := if_neg h

/-- Everything `cellIndex` can answer. -/
theorem cellIndex_eq_some {k : Int} {c : Nat} :
    cellIndex k = some c ↔ k = (c : Int) ∧ c < 256 := by
  unfold cellIndex
  split
  · rw [Option.some.injEq]; omega
  · constructor
    · intro h; cases h
    · omega

theorem cellIndex_eq_none {k : Int} : cellIndex k = none ↔ ¬(0 ≤ k ∧ k ≤ 255) := by
  unfold cellIndex
  split <;> simp_all

theorem State.memRead_of_inside (s : State) {k : Int} (h : 0 ≤ k ∧ k ≤ 255) :
    s.memRead k = some (s.mem.readCell k.toNat) := by
  simp only [State.memRead, cellIndex_of_inside h]

theorem State.memRead_of_outside (s : State) {k : Int} (h : ¬(0 ≤ k ∧ k ≤ 255)) :
    s.memRead k = none := by
  simp only [State.memRead, cellIndex_of_outside h]

/-- Everything `memRead` can answer. -/
theorem State.memRead_eq_some {s : State} {k : Int} {w : Word} :
    s.memRead k = some w ↔ (0 ≤ k ∧ k ≤ 255) ∧ w = s.mem.readCell k.toNat := by
  by_cases h : 0 ≤ k ∧ k ≤ 255
  · rw [State.memRead_of_inside s h, Option.some.injEq]
    exact ⟨fun e => ⟨h, e.symm⟩, fun e => e.2.symm⟩
  · rw [State.memRead_of_outside s h]
    exact ⟨fun e => (nomatch e), fun e => absurd e.1 h⟩

theorem State.memRead_eq_none {s : State} {k : Int} :
    s.memRead k = none ↔ ¬(0 ≤ k ∧ k ≤ 255) := by
  by_cases h : 0 ≤ k ∧ k ≤ 255
  · rw [State.memRead_of_inside s h]
    exact ⟨fun e => (nomatch e), fun e => absurd h e⟩
  · exact ⟨fun _ => h, fun _ => State.memRead_of_outside s h⟩

theorem State.memWrite_of_inside (s : State) {k : Int} (v : Word) (h : 0 ≤ k ∧ k ≤ 255) :
    s.memWrite k v = some (s.storeCell k.toNat v) := by
  simp only [State.memWrite, cellIndex_of_inside h]

theorem State.memWrite_of_outside (s : State) {k : Int} (v : Word) (h : ¬(0 ≤ k ∧ k ≤ 255)) :
    s.memWrite k v = none := by
  simp only [State.memWrite, cellIndex_of_outside h]

/-- Everything `memWrite` can answer. -/
theorem State.memWrite_eq_some {s t : State} {k : Int} {v : Word} :
    s.memWrite k v = some t ↔
      (0 ≤ k ∧ k ≤ 255) ∧ t = s.storeCell k.toNat v := by
  by_cases h : 0 ≤ k ∧ k ≤ 255
  · rw [State.memWrite_of_inside s v h, Option.some.injEq]
    exact ⟨fun e => ⟨h, e.symm⟩, fun e => e.2.symm⟩
  · rw [State.memWrite_of_outside s v h]
    exact ⟨fun e => (nomatch e), fun e => absurd e.1 h⟩

/-- The memory of a store keeps the canonical form. -/
theorem State.memWrite_wf {s t : State} {k : Int} {v : Word} (h : s.memWrite k v = some t)
    (hwf : s.mem.wf = true) : t.mem.wf = true := by
  obtain ⟨hk, rfl⟩ := State.memWrite_eq_some.mp h
  exact Memory.wf_writeCell v (by omega) hwf

end Sys2Proof.Machine
end

