-- ==== Sys2Proof/Laws/State.lean ====
section
/-! SUPPORT. One lemma per field per named update of the state, each true by rfl, so that no later proof
unfolds a record update. -/

namespace Sys2Proof.Machine

variable (s : State)

/-! ### `setReg` -/

@[simp] theorem State.setReg_regs (r : Fin 32) (v : Word) :
    (s.setReg r v).regs = s.regs.set r.val v := rfl
@[simp] theorem State.setReg_mem (r : Fin 32) (v : Word) :
    (s.setReg r v).mem = s.mem := rfl
@[simp] theorem State.setReg_pc (r : Fin 32) (v : Word) :
    (s.setReg r v).pc = s.pc := rfl
@[simp] theorem State.setReg_instructionCount (r : Fin 32) (v : Word) :
    (s.setReg r v).instructionCount = s.instructionCount := rfl
@[simp] theorem State.setReg_cycleCount (r : Fin 32) (v : Word) :
    (s.setReg r v).cycleCount = s.cycleCount := rfl
@[simp] theorem State.setReg_aluOpCounts (r : Fin 32) (v : Word) :
    (s.setReg r v).aluOpCounts = s.aluOpCounts := rfl
@[simp] theorem State.setReg_instructionTypeCounts (r : Fin 32) (v : Word) :
    (s.setReg r v).instructionTypeCounts = s.instructionTypeCounts := rfl
@[simp] theorem State.setReg_memoryReadCount (r : Fin 32) (v : Word) :
    (s.setReg r v).memoryReadCount = s.memoryReadCount := rfl
@[simp] theorem State.setReg_memoryWriteCount (r : Fin 32) (v : Word) :
    (s.setReg r v).memoryWriteCount = s.memoryWriteCount := rfl
@[simp] theorem State.setReg_runState (r : Fin 32) (v : Word) :
    (s.setReg r v).runState = s.runState := rfl
@[simp] theorem State.setReg_faultRecord (r : Fin 32) (v : Word) :
    (s.setReg r v).faultRecord = s.faultRecord := rfl
@[simp] theorem State.setReg_switches (r : Fin 32) (v : Word) :
    (s.setReg r v).switches = s.switches := rfl
@[simp] theorem State.setReg_observeCount (r : Fin 32) (v : Word) :
    (s.setReg r v).observeCount = s.observeCount := rfl
@[simp] theorem State.setReg_diagLog (r : Fin 32) (v : Word) :
    (s.setReg r v).diagLog = s.diagLog := rfl
@[simp] theorem State.setReg_memRead (r : Fin 32) (v : Word) (q : Int) :
    (s.setReg r v).memRead q = s.memRead q := rfl

/-! ### `storeCell` -/

@[simp] theorem State.storeCell_regs (c : Nat) (v : Word) :
    (s.storeCell c v).regs = s.regs := rfl
@[simp] theorem State.storeCell_mem (c : Nat) (v : Word) :
    (s.storeCell c v).mem = s.mem.writeCell c v := rfl
@[simp] theorem State.storeCell_pc (c : Nat) (v : Word) :
    (s.storeCell c v).pc = s.pc := rfl
@[simp] theorem State.storeCell_instructionCount (c : Nat) (v : Word) :
    (s.storeCell c v).instructionCount = s.instructionCount := rfl
@[simp] theorem State.storeCell_cycleCount (c : Nat) (v : Word) :
    (s.storeCell c v).cycleCount = s.cycleCount := rfl
@[simp] theorem State.storeCell_aluOpCounts (c : Nat) (v : Word) :
    (s.storeCell c v).aluOpCounts = s.aluOpCounts := rfl
@[simp] theorem State.storeCell_instructionTypeCounts (c : Nat) (v : Word) :
    (s.storeCell c v).instructionTypeCounts = s.instructionTypeCounts := rfl
@[simp] theorem State.storeCell_memoryReadCount (c : Nat) (v : Word) :
    (s.storeCell c v).memoryReadCount = s.memoryReadCount := rfl
@[simp] theorem State.storeCell_memoryWriteCount (c : Nat) (v : Word) :
    (s.storeCell c v).memoryWriteCount = s.memoryWriteCount := rfl
@[simp] theorem State.storeCell_runState (c : Nat) (v : Word) :
    (s.storeCell c v).runState = s.runState := rfl
@[simp] theorem State.storeCell_faultRecord (c : Nat) (v : Word) :
    (s.storeCell c v).faultRecord = s.faultRecord := rfl
@[simp] theorem State.storeCell_switches (c : Nat) (v : Word) :
    (s.storeCell c v).switches = s.switches := rfl
@[simp] theorem State.storeCell_observeCount (c : Nat) (v : Word) :
    (s.storeCell c v).observeCount = s.observeCount := rfl
@[simp] theorem State.storeCell_diagLog (c : Nat) (v : Word) :
    (s.storeCell c v).diagLog = s.diagLog := rfl
@[simp] theorem State.storeCell_reg (c : Nat) (v : Word) (q : Fin 32) :
    (s.storeCell c v).reg q = s.reg q := rfl

/-! ### `setPc` -/

@[simp] theorem State.setPc_regs (t : Int) :
    (s.setPc t).regs = s.regs := rfl
@[simp] theorem State.setPc_mem (t : Int) :
    (s.setPc t).mem = s.mem := rfl
@[simp] theorem State.setPc_pc (t : Int) :
    (s.setPc t).pc = t := rfl
@[simp] theorem State.setPc_instructionCount (t : Int) :
    (s.setPc t).instructionCount = s.instructionCount := rfl
@[simp] theorem State.setPc_cycleCount (t : Int) :
    (s.setPc t).cycleCount = s.cycleCount := rfl
@[simp] theorem State.setPc_aluOpCounts (t : Int) :
    (s.setPc t).aluOpCounts = s.aluOpCounts := rfl
@[simp] theorem State.setPc_instructionTypeCounts (t : Int) :
    (s.setPc t).instructionTypeCounts = s.instructionTypeCounts := rfl
@[simp] theorem State.setPc_memoryReadCount (t : Int) :
    (s.setPc t).memoryReadCount = s.memoryReadCount := rfl
@[simp] theorem State.setPc_memoryWriteCount (t : Int) :
    (s.setPc t).memoryWriteCount = s.memoryWriteCount := rfl
@[simp] theorem State.setPc_runState (t : Int) :
    (s.setPc t).runState = s.runState := rfl
@[simp] theorem State.setPc_faultRecord (t : Int) :
    (s.setPc t).faultRecord = s.faultRecord := rfl
@[simp] theorem State.setPc_switches (t : Int) :
    (s.setPc t).switches = s.switches := rfl
@[simp] theorem State.setPc_observeCount (t : Int) :
    (s.setPc t).observeCount = s.observeCount := rfl
@[simp] theorem State.setPc_diagLog (t : Int) :
    (s.setPc t).diagLog = s.diagLog := rfl
@[simp] theorem State.setPc_reg (t : Int) (q : Fin 32) :
    (s.setPc t).reg q = s.reg q := rfl
@[simp] theorem State.setPc_memRead (t : Int) (q : Int) :
    (s.setPc t).memRead q = s.memRead q := rfl

/-! ### `countType` -/

@[simp] theorem State.countType_regs (k : TypeKey) :
    (s.countType k).regs = s.regs := rfl
@[simp] theorem State.countType_mem (k : TypeKey) :
    (s.countType k).mem = s.mem := rfl
@[simp] theorem State.countType_pc (k : TypeKey) :
    (s.countType k).pc = s.pc := rfl
@[simp] theorem State.countType_instructionCount (k : TypeKey) :
    (s.countType k).instructionCount = s.instructionCount := rfl
@[simp] theorem State.countType_cycleCount (k : TypeKey) :
    (s.countType k).cycleCount = s.cycleCount := rfl
@[simp] theorem State.countType_aluOpCounts (k : TypeKey) :
    (s.countType k).aluOpCounts = s.aluOpCounts := rfl
@[simp] theorem State.countType_instructionTypeCounts (k : TypeKey) :
    (s.countType k).instructionTypeCounts = s.instructionTypeCounts.inc k := rfl
@[simp] theorem State.countType_memoryReadCount (k : TypeKey) :
    (s.countType k).memoryReadCount = s.memoryReadCount := rfl
@[simp] theorem State.countType_memoryWriteCount (k : TypeKey) :
    (s.countType k).memoryWriteCount = s.memoryWriteCount := rfl
@[simp] theorem State.countType_runState (k : TypeKey) :
    (s.countType k).runState = s.runState := rfl
@[simp] theorem State.countType_faultRecord (k : TypeKey) :
    (s.countType k).faultRecord = s.faultRecord := rfl
@[simp] theorem State.countType_switches (k : TypeKey) :
    (s.countType k).switches = s.switches := rfl
@[simp] theorem State.countType_observeCount (k : TypeKey) :
    (s.countType k).observeCount = s.observeCount := rfl
@[simp] theorem State.countType_diagLog (k : TypeKey) :
    (s.countType k).diagLog = s.diagLog := rfl
@[simp] theorem State.countType_reg (k : TypeKey) (q : Fin 32) :
    (s.countType k).reg q = s.reg q := rfl
@[simp] theorem State.countType_memRead (k : TypeKey) (q : Int) :
    (s.countType k).memRead q = s.memRead q := rfl

/-! ### `countAlu` -/

@[simp] theorem State.countAlu_regs (k : AluKey) :
    (s.countAlu k).regs = s.regs := rfl
@[simp] theorem State.countAlu_mem (k : AluKey) :
    (s.countAlu k).mem = s.mem := rfl
@[simp] theorem State.countAlu_pc (k : AluKey) :
    (s.countAlu k).pc = s.pc := rfl
@[simp] theorem State.countAlu_instructionCount (k : AluKey) :
    (s.countAlu k).instructionCount = s.instructionCount := rfl
@[simp] theorem State.countAlu_cycleCount (k : AluKey) :
    (s.countAlu k).cycleCount = s.cycleCount := rfl
@[simp] theorem State.countAlu_aluOpCounts (k : AluKey) :
    (s.countAlu k).aluOpCounts = s.aluOpCounts.inc k := rfl
@[simp] theorem State.countAlu_instructionTypeCounts (k : AluKey) :
    (s.countAlu k).instructionTypeCounts = s.instructionTypeCounts := rfl
@[simp] theorem State.countAlu_memoryReadCount (k : AluKey) :
    (s.countAlu k).memoryReadCount = s.memoryReadCount := rfl
@[simp] theorem State.countAlu_memoryWriteCount (k : AluKey) :
    (s.countAlu k).memoryWriteCount = s.memoryWriteCount := rfl
@[simp] theorem State.countAlu_runState (k : AluKey) :
    (s.countAlu k).runState = s.runState := rfl
@[simp] theorem State.countAlu_faultRecord (k : AluKey) :
    (s.countAlu k).faultRecord = s.faultRecord := rfl
@[simp] theorem State.countAlu_switches (k : AluKey) :
    (s.countAlu k).switches = s.switches := rfl
@[simp] theorem State.countAlu_observeCount (k : AluKey) :
    (s.countAlu k).observeCount = s.observeCount := rfl
@[simp] theorem State.countAlu_diagLog (k : AluKey) :
    (s.countAlu k).diagLog = s.diagLog := rfl
@[simp] theorem State.countAlu_reg (k : AluKey) (q : Fin 32) :
    (s.countAlu k).reg q = s.reg q := rfl
@[simp] theorem State.countAlu_memRead (k : AluKey) (q : Int) :
    (s.countAlu k).memRead q = s.memRead q := rfl

/-! ### `countMemRead` -/

@[simp] theorem State.countMemRead_regs :
    (s.countMemRead).regs = s.regs := rfl
@[simp] theorem State.countMemRead_mem :
    (s.countMemRead).mem = s.mem := rfl
@[simp] theorem State.countMemRead_pc :
    (s.countMemRead).pc = s.pc := rfl
@[simp] theorem State.countMemRead_instructionCount :
    (s.countMemRead).instructionCount = s.instructionCount := rfl
@[simp] theorem State.countMemRead_cycleCount :
    (s.countMemRead).cycleCount = s.cycleCount := rfl
@[simp] theorem State.countMemRead_aluOpCounts :
    (s.countMemRead).aluOpCounts = s.aluOpCounts := rfl
@[simp] theorem State.countMemRead_instructionTypeCounts :
    (s.countMemRead).instructionTypeCounts = s.instructionTypeCounts := rfl
@[simp] theorem State.countMemRead_memoryReadCount :
    (s.countMemRead).memoryReadCount = s.memoryReadCount + 1 := rfl
@[simp] theorem State.countMemRead_memoryWriteCount :
    (s.countMemRead).memoryWriteCount = s.memoryWriteCount := rfl
@[simp] theorem State.countMemRead_runState :
    (s.countMemRead).runState = s.runState := rfl
@[simp] theorem State.countMemRead_faultRecord :
    (s.countMemRead).faultRecord = s.faultRecord := rfl
@[simp] theorem State.countMemRead_switches :
    (s.countMemRead).switches = s.switches := rfl
@[simp] theorem State.countMemRead_observeCount :
    (s.countMemRead).observeCount = s.observeCount := rfl
@[simp] theorem State.countMemRead_diagLog :
    (s.countMemRead).diagLog = s.diagLog := rfl
@[simp] theorem State.countMemRead_reg (q : Fin 32) :
    (s.countMemRead).reg q = s.reg q := rfl
@[simp] theorem State.countMemRead_memRead (q : Int) :
    (s.countMemRead).memRead q = s.memRead q := rfl

/-! ### `countMemWrite` -/

@[simp] theorem State.countMemWrite_regs :
    (s.countMemWrite).regs = s.regs := rfl
@[simp] theorem State.countMemWrite_mem :
    (s.countMemWrite).mem = s.mem := rfl
@[simp] theorem State.countMemWrite_pc :
    (s.countMemWrite).pc = s.pc := rfl
@[simp] theorem State.countMemWrite_instructionCount :
    (s.countMemWrite).instructionCount = s.instructionCount := rfl
@[simp] theorem State.countMemWrite_cycleCount :
    (s.countMemWrite).cycleCount = s.cycleCount := rfl
@[simp] theorem State.countMemWrite_aluOpCounts :
    (s.countMemWrite).aluOpCounts = s.aluOpCounts := rfl
@[simp] theorem State.countMemWrite_instructionTypeCounts :
    (s.countMemWrite).instructionTypeCounts = s.instructionTypeCounts := rfl
@[simp] theorem State.countMemWrite_memoryReadCount :
    (s.countMemWrite).memoryReadCount = s.memoryReadCount := rfl
@[simp] theorem State.countMemWrite_memoryWriteCount :
    (s.countMemWrite).memoryWriteCount = s.memoryWriteCount + 1 := rfl
@[simp] theorem State.countMemWrite_runState :
    (s.countMemWrite).runState = s.runState := rfl
@[simp] theorem State.countMemWrite_faultRecord :
    (s.countMemWrite).faultRecord = s.faultRecord := rfl
@[simp] theorem State.countMemWrite_switches :
    (s.countMemWrite).switches = s.switches := rfl
@[simp] theorem State.countMemWrite_observeCount :
    (s.countMemWrite).observeCount = s.observeCount := rfl
@[simp] theorem State.countMemWrite_diagLog :
    (s.countMemWrite).diagLog = s.diagLog := rfl
@[simp] theorem State.countMemWrite_reg (q : Fin 32) :
    (s.countMemWrite).reg q = s.reg q := rfl
@[simp] theorem State.countMemWrite_memRead (q : Int) :
    (s.countMemWrite).memRead q = s.memRead q := rfl

/-! ### `countCycle` -/

@[simp] theorem State.countCycle_regs :
    (s.countCycle).regs = s.regs := rfl
@[simp] theorem State.countCycle_mem :
    (s.countCycle).mem = s.mem := rfl
@[simp] theorem State.countCycle_pc :
    (s.countCycle).pc = s.pc := rfl
@[simp] theorem State.countCycle_instructionCount :
    (s.countCycle).instructionCount = s.instructionCount := rfl
@[simp] theorem State.countCycle_cycleCount :
    (s.countCycle).cycleCount = s.cycleCount + 1 := rfl
@[simp] theorem State.countCycle_aluOpCounts :
    (s.countCycle).aluOpCounts = s.aluOpCounts := rfl
@[simp] theorem State.countCycle_instructionTypeCounts :
    (s.countCycle).instructionTypeCounts = s.instructionTypeCounts := rfl
@[simp] theorem State.countCycle_memoryReadCount :
    (s.countCycle).memoryReadCount = s.memoryReadCount := rfl
@[simp] theorem State.countCycle_memoryWriteCount :
    (s.countCycle).memoryWriteCount = s.memoryWriteCount := rfl
@[simp] theorem State.countCycle_runState :
    (s.countCycle).runState = .running := rfl
@[simp] theorem State.countCycle_faultRecord :
    (s.countCycle).faultRecord = s.faultRecord := rfl
@[simp] theorem State.countCycle_switches :
    (s.countCycle).switches = s.switches := rfl
@[simp] theorem State.countCycle_observeCount :
    (s.countCycle).observeCount = s.observeCount := rfl
@[simp] theorem State.countCycle_diagLog :
    (s.countCycle).diagLog = s.diagLog := rfl
@[simp] theorem State.countCycle_reg (q : Fin 32) :
    (s.countCycle).reg q = s.reg q := rfl
@[simp] theorem State.countCycle_memRead (q : Int) :
    (s.countCycle).memRead q = s.memRead q := rfl

/-! ### `notifyObserver` -/

@[simp] theorem State.notifyObserver_regs :
    (s.notifyObserver).regs = s.regs := rfl
@[simp] theorem State.notifyObserver_mem :
    (s.notifyObserver).mem = s.mem := rfl
@[simp] theorem State.notifyObserver_pc :
    (s.notifyObserver).pc = s.pc := rfl
@[simp] theorem State.notifyObserver_instructionCount :
    (s.notifyObserver).instructionCount = s.instructionCount := rfl
@[simp] theorem State.notifyObserver_cycleCount :
    (s.notifyObserver).cycleCount = s.cycleCount := rfl
@[simp] theorem State.notifyObserver_aluOpCounts :
    (s.notifyObserver).aluOpCounts = s.aluOpCounts := rfl
@[simp] theorem State.notifyObserver_instructionTypeCounts :
    (s.notifyObserver).instructionTypeCounts = s.instructionTypeCounts := rfl
@[simp] theorem State.notifyObserver_memoryReadCount :
    (s.notifyObserver).memoryReadCount = s.memoryReadCount := rfl
@[simp] theorem State.notifyObserver_memoryWriteCount :
    (s.notifyObserver).memoryWriteCount = s.memoryWriteCount := rfl
@[simp] theorem State.notifyObserver_runState :
    (s.notifyObserver).runState = s.runState := rfl
@[simp] theorem State.notifyObserver_faultRecord :
    (s.notifyObserver).faultRecord = s.faultRecord := rfl
@[simp] theorem State.notifyObserver_switches :
    (s.notifyObserver).switches = s.switches := rfl
@[simp] theorem State.notifyObserver_observeCount :
    (s.notifyObserver).observeCount = s.observeCount + 1 := rfl
@[simp] theorem State.notifyObserver_diagLog :
    (s.notifyObserver).diagLog = s.diagLog := rfl
@[simp] theorem State.notifyObserver_reg (q : Fin 32) :
    (s.notifyObserver).reg q = s.reg q := rfl
@[simp] theorem State.notifyObserver_memRead (q : Int) :
    (s.notifyObserver).memRead q = s.memRead q := rfl

/-! ### `emitDiag` -/

@[simp] theorem State.emitDiag_regs (c : DiagCode) (p : Int) (w : Word) :
    (s.emitDiag c p w).regs = s.regs := rfl
@[simp] theorem State.emitDiag_mem (c : DiagCode) (p : Int) (w : Word) :
    (s.emitDiag c p w).mem = s.mem := rfl
@[simp] theorem State.emitDiag_pc (c : DiagCode) (p : Int) (w : Word) :
    (s.emitDiag c p w).pc = s.pc := rfl
@[simp] theorem State.emitDiag_instructionCount (c : DiagCode) (p : Int) (w : Word) :
    (s.emitDiag c p w).instructionCount = s.instructionCount := rfl
@[simp] theorem State.emitDiag_cycleCount (c : DiagCode) (p : Int) (w : Word) :
    (s.emitDiag c p w).cycleCount = s.cycleCount := rfl
@[simp] theorem State.emitDiag_aluOpCounts (c : DiagCode) (p : Int) (w : Word) :
    (s.emitDiag c p w).aluOpCounts = s.aluOpCounts := rfl
@[simp] theorem State.emitDiag_instructionTypeCounts (c : DiagCode) (p : Int) (w : Word) :
    (s.emitDiag c p w).instructionTypeCounts = s.instructionTypeCounts := rfl
@[simp] theorem State.emitDiag_memoryReadCount (c : DiagCode) (p : Int) (w : Word) :
    (s.emitDiag c p w).memoryReadCount = s.memoryReadCount := rfl
@[simp] theorem State.emitDiag_memoryWriteCount (c : DiagCode) (p : Int) (w : Word) :
    (s.emitDiag c p w).memoryWriteCount = s.memoryWriteCount := rfl
@[simp] theorem State.emitDiag_runState (c : DiagCode) (p : Int) (w : Word) :
    (s.emitDiag c p w).runState = s.runState := rfl
@[simp] theorem State.emitDiag_faultRecord (c : DiagCode) (p : Int) (w : Word) :
    (s.emitDiag c p w).faultRecord = s.faultRecord := rfl
@[simp] theorem State.emitDiag_switches (c : DiagCode) (p : Int) (w : Word) :
    (s.emitDiag c p w).switches = s.switches := rfl
@[simp] theorem State.emitDiag_observeCount (c : DiagCode) (p : Int) (w : Word) :
    (s.emitDiag c p w).observeCount = s.observeCount := rfl
@[simp] theorem State.emitDiag_diagLog (c : DiagCode) (p : Int) (w : Word) :
    (s.emitDiag c p w).diagLog = s.diagLog ++ [{ code := c, faultPc := p, word := w }] := rfl
@[simp] theorem State.emitDiag_reg (c : DiagCode) (p : Int) (w : Word) (q : Fin 32) :
    (s.emitDiag c p w).reg q = s.reg q := rfl
@[simp] theorem State.emitDiag_memRead (c : DiagCode) (p : Int) (w : Word) (q : Int) :
    (s.emitDiag c p w).memRead q = s.memRead q := rfl

/-! ### `raiseFault` -/

@[simp] theorem State.raiseFault_regs (c : FaultCause) (p i : Int) :
    (s.raiseFault c p i).regs = s.regs := rfl
@[simp] theorem State.raiseFault_mem (c : FaultCause) (p i : Int) :
    (s.raiseFault c p i).mem = s.mem := rfl
@[simp] theorem State.raiseFault_pc (c : FaultCause) (p i : Int) :
    (s.raiseFault c p i).pc = s.pc := rfl
@[simp] theorem State.raiseFault_instructionCount (c : FaultCause) (p i : Int) :
    (s.raiseFault c p i).instructionCount = s.instructionCount := rfl
@[simp] theorem State.raiseFault_cycleCount (c : FaultCause) (p i : Int) :
    (s.raiseFault c p i).cycleCount = s.cycleCount := rfl
@[simp] theorem State.raiseFault_aluOpCounts (c : FaultCause) (p i : Int) :
    (s.raiseFault c p i).aluOpCounts = s.aluOpCounts := rfl
@[simp] theorem State.raiseFault_instructionTypeCounts (c : FaultCause) (p i : Int) :
    (s.raiseFault c p i).instructionTypeCounts = s.instructionTypeCounts := rfl
@[simp] theorem State.raiseFault_memoryReadCount (c : FaultCause) (p i : Int) :
    (s.raiseFault c p i).memoryReadCount = s.memoryReadCount := rfl
@[simp] theorem State.raiseFault_memoryWriteCount (c : FaultCause) (p i : Int) :
    (s.raiseFault c p i).memoryWriteCount = s.memoryWriteCount := rfl
@[simp] theorem State.raiseFault_runState (c : FaultCause) (p i : Int) :
    (s.raiseFault c p i).runState = .faulted := rfl
@[simp] theorem State.raiseFault_faultRecord (c : FaultCause) (p i : Int) :
    (s.raiseFault c p i).faultRecord = some { cause := c, faultPc := p, info := i } := rfl
@[simp] theorem State.raiseFault_switches (c : FaultCause) (p i : Int) :
    (s.raiseFault c p i).switches = s.switches := rfl
@[simp] theorem State.raiseFault_observeCount (c : FaultCause) (p i : Int) :
    (s.raiseFault c p i).observeCount = s.observeCount := rfl
@[simp] theorem State.raiseFault_diagLog (c : FaultCause) (p i : Int) :
    (s.raiseFault c p i).diagLog = s.diagLog := rfl
@[simp] theorem State.raiseFault_reg (c : FaultCause) (p i : Int) (q : Fin 32) :
    (s.raiseFault c p i).reg q = s.reg q := rfl
@[simp] theorem State.raiseFault_memRead (c : FaultCause) (p i : Int) (q : Int) :
    (s.raiseFault c p i).memRead q = s.memRead q := rfl

/-! ### `halt` -/

@[simp] theorem State.halt_regs :
    (s.halt).regs = s.regs := rfl
@[simp] theorem State.halt_mem :
    (s.halt).mem = s.mem := rfl
@[simp] theorem State.halt_pc :
    (s.halt).pc = s.pc := rfl
@[simp] theorem State.halt_instructionCount :
    (s.halt).instructionCount = s.instructionCount := rfl
@[simp] theorem State.halt_cycleCount :
    (s.halt).cycleCount = s.cycleCount := rfl
@[simp] theorem State.halt_aluOpCounts :
    (s.halt).aluOpCounts = s.aluOpCounts := rfl
@[simp] theorem State.halt_instructionTypeCounts :
    (s.halt).instructionTypeCounts = s.instructionTypeCounts := rfl
@[simp] theorem State.halt_memoryReadCount :
    (s.halt).memoryReadCount = s.memoryReadCount := rfl
@[simp] theorem State.halt_memoryWriteCount :
    (s.halt).memoryWriteCount = s.memoryWriteCount := rfl
@[simp] theorem State.halt_runState :
    (s.halt).runState = .halted := rfl
@[simp] theorem State.halt_faultRecord :
    (s.halt).faultRecord = s.faultRecord := rfl
@[simp] theorem State.halt_switches :
    (s.halt).switches = s.switches := rfl
@[simp] theorem State.halt_observeCount :
    (s.halt).observeCount = s.observeCount + 1 := rfl
@[simp] theorem State.halt_diagLog :
    (s.halt).diagLog = s.diagLog := rfl
@[simp] theorem State.halt_reg (q : Fin 32) :
    (s.halt).reg q = s.reg q := rfl
@[simp] theorem State.halt_memRead (q : Int) :
    (s.halt).memRead q = s.memRead q := rfl

/-! ### `writeAlu` -/

@[simp] theorem writeAlu_regs (rd : Fin 32) (v : Word) (tk : TypeKey) (ak : AluKey) :
    (writeAlu s rd v tk ak).regs = s.regs.set rd.val v := rfl
@[simp] theorem writeAlu_mem (rd : Fin 32) (v : Word) (tk : TypeKey) (ak : AluKey) :
    (writeAlu s rd v tk ak).mem = s.mem := rfl
@[simp] theorem writeAlu_pc (rd : Fin 32) (v : Word) (tk : TypeKey) (ak : AluKey) :
    (writeAlu s rd v tk ak).pc = s.pc := rfl
@[simp] theorem writeAlu_instructionCount (rd : Fin 32) (v : Word) (tk : TypeKey) (ak : AluKey) :
    (writeAlu s rd v tk ak).instructionCount = s.instructionCount := rfl
@[simp] theorem writeAlu_cycleCount (rd : Fin 32) (v : Word) (tk : TypeKey) (ak : AluKey) :
    (writeAlu s rd v tk ak).cycleCount = s.cycleCount := rfl
@[simp] theorem writeAlu_aluOpCounts (rd : Fin 32) (v : Word) (tk : TypeKey) (ak : AluKey) :
    (writeAlu s rd v tk ak).aluOpCounts = s.aluOpCounts.inc ak := rfl
@[simp] theorem writeAlu_instructionTypeCounts (rd : Fin 32) (v : Word) (tk : TypeKey) (ak : AluKey) :
    (writeAlu s rd v tk ak).instructionTypeCounts = s.instructionTypeCounts.inc tk := rfl
@[simp] theorem writeAlu_memoryReadCount (rd : Fin 32) (v : Word) (tk : TypeKey) (ak : AluKey) :
    (writeAlu s rd v tk ak).memoryReadCount = s.memoryReadCount := rfl
@[simp] theorem writeAlu_memoryWriteCount (rd : Fin 32) (v : Word) (tk : TypeKey) (ak : AluKey) :
    (writeAlu s rd v tk ak).memoryWriteCount = s.memoryWriteCount := rfl
@[simp] theorem writeAlu_runState (rd : Fin 32) (v : Word) (tk : TypeKey) (ak : AluKey) :
    (writeAlu s rd v tk ak).runState = s.runState := rfl
@[simp] theorem writeAlu_faultRecord (rd : Fin 32) (v : Word) (tk : TypeKey) (ak : AluKey) :
    (writeAlu s rd v tk ak).faultRecord = s.faultRecord := rfl
@[simp] theorem writeAlu_switches (rd : Fin 32) (v : Word) (tk : TypeKey) (ak : AluKey) :
    (writeAlu s rd v tk ak).switches = s.switches := rfl
@[simp] theorem writeAlu_observeCount (rd : Fin 32) (v : Word) (tk : TypeKey) (ak : AluKey) :
    (writeAlu s rd v tk ak).observeCount = s.observeCount := rfl
@[simp] theorem writeAlu_diagLog (rd : Fin 32) (v : Word) (tk : TypeKey) (ak : AluKey) :
    (writeAlu s rd v tk ak).diagLog = s.diagLog := rfl
@[simp] theorem writeAlu_memRead (rd : Fin 32) (v : Word) (tk : TypeKey) (ak : AluKey) (q : Int) :
    (writeAlu s rd v tk ak).memRead q = s.memRead q := rfl

/-! ### Reading a register after writing one (10_state.md R20, R21) -/

@[simp] theorem State.reg_setReg_same (r : Fin 32) (v : Word) : (s.setReg r v).reg r = v := by
  simp [State.reg, State.setReg]

theorem State.reg_setReg_other (q r : Fin 32) (v : Word) (h : q ≠ r) :
    (s.setReg r v).reg q = s.reg q := by
  have : r.val ≠ q.val := fun e => h (Fin.ext e.symm)
  simp [State.reg, State.setReg, this]

@[simp] theorem writeAlu_reg_same (rd : Fin 32) (v : Word) (tk : TypeKey) (ak : AluKey) :
    (writeAlu s rd v tk ak).reg rd = v := State.reg_setReg_same s rd v

theorem writeAlu_reg_other (q rd : Fin 32) (v : Word) (tk : TypeKey) (ak : AluKey) (h : q ≠ rd) :
    (writeAlu s rd v tk ak).reg q = s.reg q := State.reg_setReg_other s q rd v h

/-! ### Counters (10_state.md R29, R30) -/

/-- Everything an increment does to the map: the key itself, and no other. -/
theorem AluOpCounts.lookup_inc (c : AluOpCounts) (k q : AluKey) :
    (c.inc k).lookup q = if q = k then some (c.get k + 1) else c.lookup q := by
  cases k <;> cases q <;> rfl

/-- The keys of the map are those that look up to a counter. -/
theorem AluOpCounts.mem_keys {c : AluOpCounts} {k : AluKey} :
    k ∈ c.keys ↔ (c.lookup k).isSome = true := by
  simp only [AluOpCounts.keys, List.mem_filter, and_iff_right_iff_imp]
  cases k <;> simp

/-- Incrementing a key that is in the map keeps the key set. -/
theorem AluOpCounts.keys_inc {c : AluOpCounts} {k : AluKey} (h : k ∈ c.keys) :
    (c.inc k).keys = c.keys := by
  rw [AluOpCounts.mem_keys] at h
  unfold AluOpCounts.keys
  congr 1
  funext q
  rw [AluOpCounts.lookup_inc]
  split
  · next e => rw [e, h]; rfl
  · rfl

/-- The counters right after a launch: 0 for every key of the mode's key set, and no other key. -/
theorem AluOpCounts.lookup_zero (mode : Config.AddiAluKey) (k : AluKey) :
    (AluOpCounts.zero mode).lookup k = if k ∈ aluKeySet mode then some 0 else none := by
  cases mode <;> cases k <;> rfl

theorem AluOpCounts.keys_zero (mode : Config.AddiAluKey) :
    (AluOpCounts.zero mode).keys = aluKeySet mode := by
  cases mode <;> rfl

@[simp] theorem AluOpCounts.sum_zero (mode : Config.AddiAluKey) : (AluOpCounts.zero mode).sum = 0 := by
  cases mode <;> rfl

theorem AluOpCounts.get_inc (c : AluOpCounts) (k q : AluKey) :
    (c.inc k).get q = c.get q + if q = k then 1 else 0 := by
  cases k <;> cases q <;> rfl

theorem InstructionTypeCounts.get_inc (c : InstructionTypeCounts) (k q : TypeKey) :
    (c.inc k).get q = c.get q + if q = k then 1 else 0 := by
  cases k <;> cases q <;> rfl

@[simp] theorem AluOpCounts.sum_inc (c : AluOpCounts) (k : AluKey) : (c.inc k).sum = c.sum + 1 := by
  cases k <;> simp [AluOpCounts.inc, AluOpCounts.sum] <;> omega

@[simp] theorem InstructionTypeCounts.sum_inc (c : InstructionTypeCounts) (k : TypeKey) :
    (c.inc k).sum = c.sum + 1 := by
  cases k <;> simp [InstructionTypeCounts.inc, InstructionTypeCounts.sum] <;> omega

end Sys2Proof.Machine
end

