-- ==== Sys2Proof/Laws/Exec.lean ====
section
/-! SUPPORT. What each shared operation and each instruction can do, said once: the inversion lemmas that later
proofs cite instead of unfolding a meaning. -/

namespace Sys2Proof.Machine

/-! ## The overflow test (spec/41_rtype_alu.md R130) -/

theorem fitsSigned32_iff {n : Int} :
    fitsSigned32 n = true ↔ -2147483648 ≤ n ∧ n ≤ 2147483647 := by
  simp only [fitsSigned32, Bool.and_eq_true, decide_eq_true_eq]

/-- Everything the overflow test can say. -/
theorem overflowFaults_iff {mode : Config.OverflowMode} {n : Int} :
    overflowFaults mode n = true ↔ mode = .fault ∧ ¬(-2147483648 ≤ n ∧ n ≤ 2147483647) := by
  cases mode
  · simp [overflowFaults]
  · rw [← fitsSigned32_iff]
    simp [overflowFaults]

theorem writeExact_of_overflow {s : State} {n : Int}
    (h : overflowFaults s.switches.overflowMode n = true) (rd : Fin 32) (tk : TypeKey) (ak : AluKey) :
    writeExact s rd n tk ak = s.raiseFault .arithmeticOverflow s.currentSlot rd.val := if_pos h

theorem writeExact_of_fits {s : State} {n : Int}
    (h : s.switches.overflowMode = .wrap ∨ (-2147483648 ≤ n ∧ n ≤ 2147483647)) (rd : Fin 32)
    (tk : TypeKey) (ak : AluKey) : writeExact s rd n tk ak = writeAlu s rd (word n) tk ak := by
  apply if_neg
  rw [overflowFaults_iff]
  rintro ⟨hf, hn⟩
  rcases h with h | h
  · rw [h] at hf; cases hf
  · exact hn h

/-- Everything `writeExact` can do. -/
theorem writeExact_cases (s : State) (rd : Fin 32) (n : Int) (tk : TypeKey) (ak : AluKey) :
    (s.switches.overflowMode = .fault ∧
      writeExact s rd n tk ak = s.raiseFault .arithmeticOverflow s.currentSlot rd.val) ∨
    writeExact s rd n tk ak = writeAlu s rd (word n) tk ak := by
  by_cases h : overflowFaults s.switches.overflowMode n = true
  · exact .inl ⟨(overflowFaults_iff.mp h).1, writeExact_of_overflow h rd tk ak⟩
  · exact .inr (if_neg h)

/-! ## One instruction -/

/-- Everything an instruction can do to the state it runs in. -/
inductive ExecEffect (i : Instr) (s : State) : State → Prop
  /-- It raises one of its own faults (60_exceptions.md R201, R204). -/
  | raised (c : FaultCause) (info : Int)
      (hc : (c = .loadOutOfBounds ∧ i.isLoad = true) ∨ (c = .storeOutOfBounds ∧ i.isStore = true) ∨
        (c = .arithmeticOverflow ∧ i.isExact = true ∧ s.switches.overflowMode = .fault)) :
      ExecEffect i s (s.raiseFault c s.currentSlot info)
  /-- It writes a register and counts itself as an ALU operation (40_cycle.md R105). -/
  | alu (rd : Fin 32) (v : Word) (ak : AluKey) (hd : i.destination = some rd)
      (hk : i.aluKey s.switches.addiAluKey = some ak) (hl : i.isLoad = false)
      (hs : i.isStore = false) (hc : i.isControl = false) :
      ExecEffect i s (writeAlu s rd v i.typeKey ak)
  /-- It loads a cell (44_load_store.md R180). -/
  | load (rt : Fin 32) (offset : Int) (rs : Fin 32) (hi : i = .lw rt offset rs)
      (hin : 0 ≤ effectiveIndex s rs offset ∧ effectiveIndex s rs offset ≤ 255) :
      ExecEffect i s (((s.setReg rt (s.mem.readCell (effectiveIndex s rs offset).toNat)).countType
        .lw).countMemRead)
  /-- It stores a register (44_load_store.md R181). -/
  | store (rt : Fin 32) (offset : Int) (rs : Fin 32) (hi : i = .sw rt offset rs)
      (hin : 0 ≤ effectiveIndex s rs offset ∧ effectiveIndex s rs offset ≤ 255) :
      ExecEffect i s (((s.storeCell (effectiveIndex s rs offset).toNat (s.reg rt)).countType .sw).countMemWrite)
  /-- It jumps (42_control.md R150). -/
  | jump (target : Nat) (hi : i = .j target) :
      ExecEffect i s ((s.setPc (target : Int)).countType .j)
  /-- It branches or falls through (42_control.md R151). -/
  | branch (rs rt : Fin 32) (offset : Int) (p : Int) (hi : i = .beq rs rt offset)
      (hp : (s.reg rs = s.reg rt ∧ p = s.pc + offset) ∨ (s.reg rs ≠ s.reg rt ∧ p = s.pc)) :
      ExecEffect i s (((s.countType .beq).countAlu .sub).setPc p)

theorem execEffect_writeExact {i : Instr} {s : State} {rd : Fin 32} {ak : AluKey} (n : Int)
    (hd : i.destination = some rd) (hk : i.aluKey s.switches.addiAluKey = some ak)
    (he : i.isExact = true) (hl : i.isLoad = false) (hs : i.isStore = false)
    (hc : i.isControl = false) : ExecEffect i s (writeExact s rd n i.typeKey ak) := by
  rcases writeExact_cases s rd n i.typeKey ak with ⟨hf, h⟩ | h <;> rw [h]
  · exact .raised _ _ (.inr (.inr ⟨rfl, he, hf⟩))
  · exact .alu rd _ ak hd hk hl hs hc

theorem addiKey_eq (s : State) (rt rs : Fin 32) (imm : Int) :
    (Instr.addi rt rs imm).aluKey s.switches.addiAluKey = some (addiKey s) := by
  simp only [Instr.aluKey, addiKey]
  cases s.switches.addiAluKey <;> rfl

/-- The key an instruction increments is in the mode's key set (10_state.md R29). -/
theorem aluKey_mem_aluKeySet {i : Instr} {mode : Config.AddiAluKey} {k : AluKey}
    (h : i.aluKey mode = some k) : k ∈ aluKeySet mode := by
  cases mode <;> cases i <;> cases h <;> decide

/-- Every instruction answers a next state, and `ExecEffect` says which. -/
theorem exec_effect (i : Instr) (s : State) : ∃ t, exec i s = .next t ∧ ExecEffect i s t := by
  cases i with
  | add rd rs rt shamt => exact ⟨_, rfl, execEffect_writeExact
    (i := .add rd rs rt shamt) _ rfl rfl rfl rfl rfl rfl⟩
  | sub rd rs rt shamt => exact ⟨_, rfl, execEffect_writeExact
    (i := .sub rd rs rt shamt) _ rfl rfl rfl rfl rfl rfl⟩
  | and rd rs rt shamt => exact ⟨_, rfl, .alu rd _ _ rfl rfl rfl rfl rfl⟩
  | or rd rs rt shamt => exact ⟨_, rfl, .alu rd _ _ rfl rfl rfl rfl rfl⟩
  | slt rd rs rt shamt => exact ⟨_, rfl, .alu rd _ _ rfl rfl rfl rfl rfl⟩
  | j target => exact ⟨_, rfl, .jump target rfl⟩
  | beq rs rt offset =>
    by_cases h : s.reg rs = s.reg rt
    · exact ⟨_, if_pos h, .branch rs rt offset _ rfl (.inl ⟨h, rfl⟩)⟩
    · exact ⟨_, if_neg h, .branch rs rt offset s.pc rfl (.inr ⟨h, rfl⟩)⟩
  | addi rt rs imm => exact ⟨_, rfl, execEffect_writeExact
    (i := .addi rt rs imm) _ rfl
    (addiKey_eq s rt rs imm) rfl rfl rfl rfl⟩
  | lw rt offset rs =>
    simp only [exec, execLw]
    by_cases h : 0 ≤ effectiveIndex s rs offset ∧ effectiveIndex s rs offset ≤ 255
    · rw [State.memRead_of_inside s h]
      exact ⟨_, rfl, .load rt offset rs rfl h⟩
    · rw [State.memRead_of_outside s h]
      exact ⟨_, rfl, .raised _ _ (.inl ⟨rfl, rfl⟩)⟩
  | sw rt offset rs =>
    simp only [exec, execSw]
    by_cases h : 0 ≤ effectiveIndex s rs offset ∧ effectiveIndex s rs offset ≤ 255
    · rw [State.memWrite_of_inside s _ h]
      exact ⟨_, rfl, .store rt offset rs rfl h⟩
    · rw [State.memWrite_of_outside s _ h]
      exact ⟨_, rfl, .raised _ _ (.inr (.inl ⟨rfl, rfl⟩))⟩

/-- The inversion of `exec`. -/
theorem exec_next {i : Instr} {s t : State} (h : exec i s = .next t) : ExecEffect i s t := by
  obtain ⟨u, hu, he⟩ := exec_effect i s
  rw [h] at hu
  cases hu
  exact he

end Sys2Proof.Machine
end

