-- ==== Sys2Proof/Laws/Launch.lean ====
section
/-! SUPPORT. The loader keeps the canonical form of memory and the bound on the count of loaded words
(spec/70_reset_and_hazards.md R240, spec/10_state.md R27). -/

namespace Sys2Proof.Machine

/-- Writing consecutive cells of the array keeps the canonical form. -/
theorem Memory.wf_writeCells : ∀ (ws : List Word) {m : Memory} {k : Nat}, k + ws.length ≤ 256 →
    m.wf = true → (m.writeCells k ws).wf = true
  | [], _, _, _, h => h
  | w :: ws, m, k, hk, h => by
    simp only [List.length_cons] at hk
    exact Memory.wf_writeCells ws (by omega) (Memory.wf_writeCell w (by omega) h)

/-- Memory before the loader writes has the canonical form (R241). -/
theorem InitFill.wf_memory (fill : InitFill) : fill.memory.wf = true := by
  cases fill with
  | zero => rfl
  | arbitrary regs cells => exact Memory.wf_writeCells _ (by simp) rfl

/-- The loader's loop keeps the canonical form and the bound. -/
theorem loadWords_ok : ∀ (bytes : List Byte) {n : Nat} {m : Memory} {r : Memory × Nat},
    n ≤ 256 → m.wf = true → loadWords bytes n m = .ok r → r.1.wf = true ∧ r.2 ≤ 256
  | [], _, _, _, hn, hm, h => by cases h; exact ⟨hm, hn⟩
  | [_], _, _, _, _, _, h => by cases h
  | [_, _], _, _, _, _, _, h => by cases h
  | [_, _, _], _, _, _, _, _, h => by cases h
  | b0 :: b1 :: b2 :: b3 :: rest, n, m, r, hn, hm, h => by
    simp only [loadWords] at h
    split at h
    · cases h; exact ⟨hm, hn⟩
    · split at h
      · cases h
      · next hne =>
        have hlt : n < 256 := lt_of_le_of_ne hn hne
        exact loadWords_ok rest hlt (Memory.wf_writeCell _ hlt hm) h

/-- Everything a launch that is not refused leaves (R241). -/
theorem launch_ok {switches : Config.Switches} {fill : InitFill} {bytes : List Byte} {s : State}
    (h : launch switches fill bytes = .ok s) :
    ∃ r : Memory × Nat, loadWords bytes 0 fill.memory = .ok r ∧
      s = { State.reset with
            regs := fill.registers, mem := r.1, instructionCount := r.2, switches := switches
            aluOpCounts := AluOpCounts.zero switches.addiAluKey } := by
  unfold launch at h
  cases hl : loadWords bytes 0 fill.memory with
  | error e => rw [hl] at h; cases h
  | ok r => rw [hl] at h; cases h; exact ⟨r, rfl, rfl⟩

/-- What a cell reads as after writing consecutive cells. -/
theorem Memory.readCell_writeCells : ∀ (ws : List Word) {m : Memory} {k : Nat},
    k + ws.length ≤ 256 → m.wf = true →
    (∀ (j : Nat) (h : j < ws.length), (m.writeCells k ws).readCell (k + j) = ws[j]) ∧
    (∀ j : Nat, j < k ∨ k + ws.length ≤ j → (m.writeCells k ws).readCell j = m.readCell j)
  | [], _, _, _, _ => ⟨fun _ h => absurd h (Nat.not_lt_zero _), fun _ _ => rfl⟩
  | w :: ws, m, k, hk, hm => by
    simp only [List.length_cons] at hk
    obtain ⟨inside, outside⟩ := Memory.readCell_writeCells ws (m := m.writeCell k w) (k := k + 1)
      (by omega) (Memory.wf_writeCell w (by omega) hm)
    simp only [Memory.writeCells, List.length_cons]
    refine ⟨fun j hj => ?_, fun j hj => ?_⟩
    · cases j with
      | zero =>
        exact (outside k (by omega)).trans (Memory.readCell_writeCell_same _ (by omega) hm)
      | succ j =>
        rw [show k + (j + 1) = k + 1 + j from by omega, inside j (by omega)]
        rfl
    · rw [outside j (by omega), Memory.readCell_writeCell_other _ _ (by omega)]

end Sys2Proof.Machine
end

