-- ==== Sys2Proof/Laws/PerInstr.lean ====
section
/-! SUPPORT. Per-instruction statements about the syntax: the opcode and function code in an instruction's
encoding are those of its row of the opcode table (spec/30_encoding.md R79). -/

namespace Sys2Proof.Laws

/-- The row's opcode (R79). -/
def EncodedFields.opcodeOf : Instr → Nat
  | .add _ _ _ _ => 0
  | .sub _ _ _ _ => 0
  | .and _ _ _ _ => 0
  | .or _ _ _ _ => 0
  | .slt _ _ _ _ => 0
  | .j _ => 2
  | .beq _ _ _ => 4
  | .addi _ _ _ => 8
  | .lw _ _ _ => 35
  | .sw _ _ _ => 43

/-- The row's function code, where its opcode is 0 (R79). -/
def EncodedFields.functOf : Instr → Option Nat
  | .add _ _ _ _ => some 32
  | .sub _ _ _ _ => some 34
  | .and _ _ _ _ => some 36
  | .or _ _ _ _ => some 37
  | .slt _ _ _ _ => some 42
  | .j _ => none
  | .beq _ _ _ => none
  | .addi _ _ _ => none
  | .lw _ _ _ => none
  | .sw _ _ _ => none

/-- The encoding of a well-formed instruction carries its row's opcode and function code (R79). -/
def EncodedFields.Statement (i : Instr) : Prop :=
  i.wellFormed = true →
    opcodeField (encode i) = EncodedFields.opcodeOf i ∧
    ∀ f, EncodedFields.functOf i = some f → functField (encode i) = f

theorem EncodedFields.rType {rd rs rt shamt : Fin 32} {funct : Nat} (h : funct < 64) :
    opcodeField (encodeR rd rs rt shamt funct) = 0 ∧
    ∀ f, some funct = some f → functField (encodeR rd rs rt shamt funct) = f :=
  ⟨(fields_encodeR rd rs rt shamt h).1, fun _ e =>
    (fields_encodeR rd rs rt shamt h).2.1.trans (Option.some.inj e)⟩

theorem EncodedFields.add (rd rs rt : RegIndex) (shamt : Fin 32) :
    EncodedFields.Statement (.add rd rs rt shamt) := fun _ => EncodedFields.rType (by decide)

theorem EncodedFields.sub (rd rs rt : RegIndex) (shamt : Fin 32) :
    EncodedFields.Statement (.sub rd rs rt shamt) := fun _ => EncodedFields.rType (by decide)

theorem EncodedFields.and (rd rs rt : RegIndex) (shamt : Fin 32) :
    EncodedFields.Statement (.and rd rs rt shamt) := fun _ => EncodedFields.rType (by decide)

theorem EncodedFields.or (rd rs rt : RegIndex) (shamt : Fin 32) :
    EncodedFields.Statement (.or rd rs rt shamt) := fun _ => EncodedFields.rType (by decide)

theorem EncodedFields.slt (rd rs rt : RegIndex) (shamt : Fin 32) :
    EncodedFields.Statement (.slt rd rs rt shamt) := fun _ => EncodedFields.rType (by decide)

theorem EncodedFields.j (target : Nat) : EncodedFields.Statement (.j target) :=
  fun h => ⟨(fields_encodeJ (of_decide_eq_true h)).1, fun _ e => nomatch e⟩

theorem EncodedFields.beq (rs rt : RegIndex) (offset : Int) :
    EncodedFields.Statement (.beq rs rt offset) :=
  fun _ => ⟨(fields_encodeI rs rt offset (by decide)).1, fun _ e => nomatch e⟩

theorem EncodedFields.addi (rt rs : RegIndex) (imm : Int) :
    EncodedFields.Statement (.addi rt rs imm) :=
  fun _ => ⟨(fields_encodeI rs rt imm (by decide)).1, fun _ e => nomatch e⟩

theorem EncodedFields.lw (rt : RegIndex) (offset : Int) (rs : RegIndex) :
    EncodedFields.Statement (.lw rt offset rs) :=
  fun _ => ⟨(fields_encodeI rs rt offset (by decide)).1, fun _ e => nomatch e⟩

theorem EncodedFields.sw (rt : RegIndex) (offset : Int) (rs : RegIndex) :
    EncodedFields.Statement (.sw rt offset rs) :=
  fun _ => ⟨(fields_encodeI rs rt offset (by decide)).1, fun _ e => nomatch e⟩

end Sys2Proof.Laws
end

