-- ==== Sys2Proof/Laws/Step.lean ====
section
/-! SUPPORT. What one step of the run loop can do, said once (spec/40_cycle.md R100 to R104). -/

namespace Sys2Proof.Machine

/-! ## The end of a cycle -/

theorem completeCycle_of_faulted {s : State} (h : s.runState = .faulted) : completeCycle s = s := by
  simp only [completeCycle, h]

theorem completeCycle_of_not_faulted {s : State} (h : s.runState ≠ .faulted) :
    completeCycle s = s.countCycle := by
  cases hs : s.runState <;> simp_all [completeCycle]

/-- The end of a cycle writes `cycleCount` and `runState` only. -/
theorem completeCycle_eq (s : State) : completeCycle s =
    { s with
      cycleCount := if s.runState = .faulted then s.cycleCount else s.cycleCount + 1
      runState := if s.runState = .faulted then .faulted else .running } := by
  cases s with
  | mk _ _ _ _ _ _ _ _ _ r => cases r <;> rfl

/-! ## Executing a decoded word -/

/-- Everything the execute of a fetched word can do. -/
theorem execute_next {d : Decoded} {w : Word} {s t : State} (h : execute d w s = .next t) :
    (∃ i, d = .instr i ∧ ExecEffect i s t) ∨
    (d = .unrecognizedOpcode ∧ t = s.emitDiag .unrecognizedOpcode s.currentSlot w) ∨
    (d = .unrecognizedFunct ∧ s.switches.unknownFunctMode = .nop ∧
      t = s.emitDiag .unrecognizedFunct s.currentSlot w) ∨
    (d = .unrecognizedFunct ∧ s.switches.unknownFunctMode = .fault ∧
      t = s.raiseFault .unrecognizedFunctFault s.currentSlot (uval w)) := by
  cases d with
  | instr i => exact .inl ⟨i, rfl, exec_next h⟩
  | unrecognizedOpcode => cases h; exact .inr (.inl ⟨rfl, rfl⟩)
  | unrecognizedFunct =>
    simp only [execute, execUnrecognizedFunct] at h
    cases hm : s.switches.unknownFunctMode <;> simp only [hm] at h <;> cases h
    · exact .inr (.inr (.inl ⟨rfl, rfl, rfl⟩))
    · exact .inr (.inr (.inr ⟨rfl, rfl, rfl⟩))

/-- The execute of a fetched word always answers a next state. -/
theorem execute_answers (d : Decoded) (w : Word) (s : State) : ∃ t, execute d w s = .next t := by
  cases d with
  | instr i => obtain ⟨t, ht, _⟩ := exec_effect i s; exact ⟨t, ht⟩
  | unrecognizedOpcode => exact ⟨_, rfl⟩
  | unrecognizedFunct => exact ⟨_, rfl⟩

/-! ## One step -/

/-- The state the fetch leaves to the instruction (R102). -/
abbrev State.afterFetch (s : State) : State := s.notifyObserver.setPc (s.pc + 1)

/-- Everything a step that answers a next state can do. -/
inductive StepEffect (s : State) : State → Prop
  /-- The halt (R101). -/
  | halt (hl : s.live) (hpc : (s.instructionCount : Int) ≤ s.pc) : StepEffect s s.halt
  /-- A fetch outside the array (R102). -/
  | fetchFault (hl : s.live) (hpc : s.pc < s.instructionCount) (hout : ¬(0 ≤ s.pc ∧ s.pc ≤ 255)) :
      StepEffect s (s.notifyObserver.raiseFault .fetchOutOfBounds s.pc s.pc)
  /-- A fetch and an execute (R100). -/
  | executed (w : Word) (u : State) (hl : s.live) (hpc : s.pc < s.instructionCount)
      (hin : 0 ≤ s.pc ∧ s.pc ≤ 255) (hw : w = s.mem.readCell s.pc.toNat)
      (hu : execute (decode w) w s.afterFetch = .next u) : StepEffect s (completeCycle u)

theorem step_of_live {s : State} (h : s.live) :
    step s = if s.pc < s.instructionCount then cycle s else .next s.halt := by
  rcases h with h | h <;> simp only [step, runLoop, h]

/-- A cycle whose fetch is inside the array (R100, R102). -/
theorem cycle_of_inside {s : State} {w : Word} (h : s.memRead s.pc = some w) :
    cycle s = finishCycle (execute (decode w) w s.afterFetch) := by
  have h' : s.notifyObserver.memRead s.pc = some w := h
  unfold cycle
  rw [h']

/-- A cycle whose fetch is outside the array (R102). -/
theorem cycle_of_outside {s : State} (h : s.memRead s.pc = none) :
    cycle s = .next (s.notifyObserver.raiseFault .fetchOutOfBounds s.pc s.pc) := by
  have h' : s.notifyObserver.memRead s.pc = none := h
  unfold cycle
  rw [h']

/-- Every live state has a next state, and `StepEffect` says which. -/
theorem step_effect {s : State} (h : s.live) : ∃ t, step s = .next t ∧ StepEffect s t := by
  rw [step_of_live h]
  by_cases hpc : s.pc < s.instructionCount
  · rw [if_pos hpc]
    by_cases hin : 0 ≤ s.pc ∧ s.pc ≤ 255
    · obtain ⟨u, hu⟩ := execute_answers (decode (s.mem.readCell s.pc.toNat))
        (s.mem.readCell s.pc.toNat) s.afterFetch
      rw [cycle_of_inside (State.memRead_of_inside s hin), hu]
      exact ⟨completeCycle u, rfl, .executed _ u h hpc hin rfl hu⟩
    · rw [cycle_of_outside (State.memRead_of_outside s hin)]
      exact ⟨_, rfl, .fetchFault h hpc hin⟩
  · rw [if_neg hpc]
    exact ⟨_, rfl, .halt h (Int.not_lt.mp hpc)⟩

/-- Only a live state has a next state (R110). -/
theorem live_of_step {s t : State} (h : step s = .next t) : s.live := by
  cases hr : s.runState with
  | ready => exact .inl hr
  | running => exact .inr hr
  | halted => simp only [step, runLoop, hr] at h; cases h
  | faulted => simp only [step, runLoop, hr] at h; cases h

/-- The inversion of `step`. -/
theorem step_next {s t : State} (h : step s = .next t) : StepEffect s t := by
  obtain ⟨u, hu, he⟩ := step_effect (live_of_step h)
  rw [h] at hu
  cases hu
  exact he

/-! ## What every execute and every step leaves alone -/

theorem State.live.not_terminal {s : State} (h : s.live) :
    s.runState ≠ .faulted ∧ s.runState ≠ .halted := by
  rcases h with h | h <;> rw [h] <;> decide

/-- An execute writes no count of cycles or events and neither the length nor the switches, and it either
goes on, with at most one diagnostic, or raises one fault (60_exceptions.md R206). -/
theorem execute_frame {d : Decoded} {w : Word} {s t : State} (h : execute d w s = .next t) :
    (t.instructionCount = s.instructionCount ∧ t.cycleCount = s.cycleCount ∧
      t.switches = s.switches ∧ t.observeCount = s.observeCount) ∧
    ((t.runState = s.runState ∧ t.faultRecord = s.faultRecord ∧
        ∃ ds, t.diagLog = s.diagLog ++ ds ∧ ds.length ≤ 1) ∨
      ∃ c info, c ≠ .fetchOutOfBounds ∧
        (c = .arithmeticOverflow → s.switches.overflowMode = .fault) ∧
        (c = .unrecognizedFunctFault → s.switches.unknownFunctMode = .fault) ∧
        t = s.raiseFault c s.currentSlot info) := by
  rcases execute_next h with ⟨i, rfl, he⟩ | ⟨rfl, rfl⟩ | ⟨rfl, hm, rfl⟩ | ⟨rfl, hm, rfl⟩
  · cases he with
    | raised c info hc =>
      refine ⟨⟨rfl, rfl, rfl, rfl⟩, .inr ⟨c, info, ?_, ?_, ?_, rfl⟩⟩ <;>
        rcases hc with ⟨rfl, _⟩ | ⟨rfl, _⟩ | ⟨rfl, _, h⟩ <;> simp_all
    | _ => exact ⟨⟨rfl, rfl, rfl, rfl⟩, .inl ⟨rfl, rfl, [], by simp⟩⟩
  · exact ⟨⟨rfl, rfl, rfl, rfl⟩, .inl ⟨rfl, rfl, _, rfl, by simp⟩⟩
  · exact ⟨⟨rfl, rfl, rfl, rfl⟩, .inl ⟨rfl, rfl, _, rfl, by simp⟩⟩
  · exact ⟨⟨rfl, rfl, rfl, rfl⟩, .inr ⟨_, _, by decide, by simp, fun _ => hm, rfl⟩⟩

end Sys2Proof.Machine
end

