-- ==== Sys2Proof/Tests/Slice0.lean ====
section
/-! SUPPORT. Tests, each about one decoded word, one step or one launch, with the expected result taken from
spec/95_test_vectors.md (the vector's number in the comment) or from a rule; and, for every statement with
hypotheses, a witness that meets them. -/

namespace Sys2Proof.Tests
open Sys2Proof.Machine

/-! ## Helpers -/

/-- The start state of spec/95 part 2: the word under test in `M[p]`, `instructionCount = p + 1`. -/
def start (p : Nat) (w : Word) (regs : List (Fin 32 × Word)) (cells : List (Nat × Word)) : State :=
  let s : State := { State.reset with runState := .running, pc := p, instructionCount := p + 1 }
  let s := regs.foldl (fun s q => s.setReg q.1 q.2) s
  (cells.foldl (fun s q => s.storeCell q.1 q.2) s).storeCell p w

/-- The state after one step, and the start state where the step answers none. -/
def after (s : State) : State :=
  match step s with
  | .next t => t
  | .fault _ => s
  | .refused _ => s

/-- Overflow faults on. -/
def trapping (s : State) : State := { s with switches := { s.switches with overflowMode := .fault } }

/-- Function-code faults on. -/
def strict (s : State) : State := { s with switches := { s.switches with unknownFunctMode := .fault } }

/-- `addi` counted under `add`, with that mode's key set at 0. -/
def addKeyed (s : State) : State :=
  { s with switches := { s.switches with addiAluKey := .add }, aluOpCounts := AluOpCounts.zero .add }

/-- Cell `k`. -/
def cell (s : State) (k : Nat) : Word := s.mem.readCell k

/-! ## Well-formedness: an ill-formed term for each check -/

theorem test_wf_accepts_bounds :
    (Instr.j 67108863).wellFormed = true ∧ (Instr.beq 0 31 (-32768)).wellFormed = true ∧
    (Instr.addi 0 0 32767).wellFormed = true := by decide
theorem test_wf_refuses_j : (Instr.j 67108864).wellFormed = false := by decide
theorem test_wf_refuses_beq :
    (Instr.beq 1 2 32768).wellFormed = false ∧ (Instr.beq 1 2 (-32769)).wellFormed = false := by decide
theorem test_wf_refuses_addi :
    (Instr.addi 1 2 32768).wellFormed = false ∧ (Instr.addi 1 2 (-32769)).wellFormed = false := by decide
theorem test_wf_refuses_lw :
    (Instr.lw 1 32768 2).wellFormed = false ∧ (Instr.lw 1 (-32769) 2).wellFormed = false := by decide
theorem test_wf_refuses_sw :
    (Instr.sw 1 32768 2).wellFormed = false ∧ (Instr.sw 1 (-32769) 2).wellFormed = false := by decide

/-! ## Decoding: one word per constructor, its fields written out bit by bit from 30_encoding.md R79 -/

theorem test_decode_add : decode 0b000000_00001_00010_00011_00000_100000#32 = .instr (.add 3 1 2 0) := by decide
theorem test_decode_sub : decode 0b000000_00001_00010_00011_00000_100010#32 = .instr (.sub 3 1 2 0) := by decide
theorem test_decode_and : decode 0b000000_00001_00010_00011_00000_100100#32 = .instr (.and 3 1 2 0) := by decide
theorem test_decode_or : decode 0b000000_00001_00010_00011_00000_100101#32 = .instr (.or 3 1 2 0) := by decide
theorem test_decode_slt : decode 0b000000_00001_00010_00011_11111_101010#32 = .instr (.slt 3 1 2 31) := by decide
theorem test_decode_j : decode 0b000010_11111111111111111111111111#32 = .instr (.j 67108863) := by decide
theorem test_decode_beq : decode 0b000100_00001_00010_1111111111111011#32 = .instr (.beq 1 2 (-5)) := by decide
theorem test_decode_addi : decode 0b001000_00001_00010_1000000000000000#32 = .instr (.addi 2 1 (-32768)) := by decide
theorem test_decode_lw : decode 0b100011_00010_00001_0111111111111111#32 = .instr (.lw 1 32767 2) := by decide
theorem test_decode_sw : decode 0b101011_00001_00100_1111111111111100#32 = .instr (.sw 4 (-4) 1) := by decide
-- V34, V36, V37
theorem test_decode_unrecognized :
    decode 0x00000000#32 = .unrecognizedFunct ∧ decode 0x04000000#32 = .unrecognizedOpcode ∧
    decode 0xFFFFFFFF#32 = .unrecognizedOpcode := by decide
-- R84, with the words of P2 and P3
theorem test_encode :
    encode (.addi 1 0 5) = 0x20010005#32 ∧ encode (.lw 3 40 0) = 0x8C030028#32 ∧
    encode (.sub 10 0 7 0) = 0x00075022#32 ∧ encode (.j 2) = 0x08000002#32 := by decide
theorem test_decodeTableWord :
    decodeTableWord 32 0x00221960 = some (.add 3 1 2 5) ∧ decodeTableWord 32 0 = none := by decide

/-! ## One step of each instruction -/

-- V3
theorem test_add_wraps :
    (after (start 0 0x00221820#32 [(1, 0x80000000#32), (2, 0x80000000#32)] [])).reg 3 = 0#32 := by decide
-- V22
theorem test_add_overflow :
    (after (trapping (start 0 0x00221820#32 [(1, 0x7FFFFFFF#32), (2, 1#32)] []))).faultRecord =
      some { cause := .arithmeticOverflow, faultPc := 0, info := 3 } := by decide
-- V8
theorem test_sub_order :
    (after (start 0 0x00221822#32 [(1, 5#32), (2, 9#32)] [])).reg 3 = 0xFFFFFFFC#32 := by decide
-- V23
theorem test_sub_overflow :
    (after (trapping (start 0 0x00221822#32 [(1, 0x80000000#32), (2, 1#32)] []))).faultRecord =
      some { cause := .arithmeticOverflow, faultPc := 0, info := 3 } := by decide
-- V12
theorem test_and :
    (after (start 0 0x00221824#32 [(1, 0xC#32), (2, 0xA#32)] [])).reg 3 = 8#32 := by decide
-- V14
theorem test_or :
    (after (start 0 0x00221825#32 [(1, 0xC#32), (2, 0xA#32)] [])).reg 3 = 0xE#32 := by decide
-- V20
theorem test_slt_signed_false :
    (after (start 0 0x0022182A#32 [(1, 0x7FFFFFFF#32), (2, 0x80000000#32), (3, 9#32)] [])).reg 3 = 0#32 := by decide
-- V21
theorem test_slt_signed_true :
    (after (start 0 0x0022182A#32 [(1, 0x80000000#32), (2, 0x7FFFFFFF#32)] [])).reg 3 = 1#32 := by decide
-- V38
theorem test_j_absolute :
    let t := after { start 3 0x08000007#32 [] [] with instructionCount := 10 }
    t.pc = 7 ∧ t.instructionTypeCounts.j = 1 ∧ t.aluOpCounts = AluOpCounts.zero .addi := by decide
-- V40
theorem test_beq_taken :
    let t := after (start 2 0x10000002#32 [] [])
    t.pc = 5 ∧ t.aluOpCounts.sub = 1 ∧ t.instructionTypeCounts.beq = 1 := by decide
-- V41
theorem test_beq_not_taken :
    let t := after (start 2 0x10220002#32 [(1, 1#32), (2, 2#32)] [])
    t.pc = 3 ∧ t.aluOpCounts.sub = 1 := by decide
-- V29
theorem test_addi_sign_extends :
    (after (start 0 0x20028000#32 [] [])).reg 2 = 0xFFFF8000#32 := by decide
-- V33
theorem test_addi_key :
    let t := after (addKeyed (start 0 0x20040005#32 [] []))
    t.reg 4 = 5#32 ∧ t.aluOpCounts.add = 1 ∧ t.aluOpCounts.keys = [.add, .and, .or, .sub, .slt] ∧
    t.instructionTypeCounts.addi = 1 := by decide
-- V52
theorem test_lw_truncates_toward_zero :
    let t := after (start 4 0x8C05FFFF#32 [] [(0, 0x55#32)])
    t.reg 5 = 0x55#32 ∧ t.pc = 5 ∧ t.memoryReadCount = 1 := by decide
-- V53
theorem test_lw_faults :
    let t := after (start 0 0x8C05FFFC#32 [] [])
    t.faultRecord = some { cause := .loadOutOfBounds, faultPc := 0, info := -1 } ∧
    t.pc = 1 ∧ t.cycleCount = 0 := by decide
-- V59
theorem test_sw_stores :
    let t := after (start 0 0xAC24FFFC#32 [(1, 12#32), (4, 5#32)] [])
    cell t 2 = 5#32 ∧ t.memoryWriteCount = 1 := by decide
-- V62
theorem test_sw_faults :
    (after (start 0 0xAC240000#32 [(1, 1024#32), (4, 5#32)] [])).faultRecord =
      some { cause := .storeOutOfBounds, faultPc := 0, info := 256 } := by decide

/-! ## The run loop -/

-- V36, and the worked example of R104
theorem test_unrecognized_opcode :
    let t := after (start 0 0x04000000#32 [] [])
    t.diagLog = [{ code := .unrecognizedOpcode, faultPc := 0, word := 0x04000000#32 }] ∧ t.pc = 1 ∧
    t.cycleCount = 1 ∧ t.instructionTypeCounts = InstructionTypeCounts.zero := by decide
-- V35
theorem test_unrecognized_funct :
    let t := after (start 0 0x00011100#32 [(2, 7#32)] [])
    t.diagLog = [{ code := .unrecognizedFunct, faultPc := 0, word := 0x00011100#32 }] ∧
    t.reg 2 = 7#32 := by decide
-- V37a
theorem test_unrecognized_funct_fault :
    let t := after (strict (start 0 0#32 [] []))
    t.faultRecord = some { cause := .unrecognizedFunctFault, faultPc := 0, info := 0 } ∧ t.pc = 1 ∧
    t.cycleCount = 0 ∧ t.diagLog = [] := by decide
-- V71
theorem test_halt :
    let t := after { State.reset with runState := .running, pc := 67108863, instructionCount := 4 }
    t.runState = .halted ∧ t.pc = 67108863 ∧ t.observeCount = 1 := by decide
-- V72
theorem test_fetch_fault :
    let t := after { State.reset with runState := .running, pc := -4, instructionCount := 1 }
    t.faultRecord = some { cause := .fetchOutOfBounds, faultPc := -4, info := -4 } ∧ t.pc = -4 ∧
    t.cycleCount = 0 ∧ t.observeCount = 1 := by decide
-- P0: the first step of the empty program halts
theorem test_empty_program :
    (after State.reset).terminalStatus = some .halted ∧ (after State.reset).observeCount = 1 ∧
    runEvents 2 State.reset = [.observe (after State.reset).snapshot] := by decide
-- R110
theorem test_terminal_is_stuck :
    (match step (after State.reset) with
      | .fault r => some r
      | .next _ => none
      | .refused _ => none) = some Fault.noStepHalted := by decide
theorem test_fetch_word :
    (after (State.reset.withFetchWord 32 0x20040005)).reg 4 = 5#32 := by decide
-- R201, R203
theorem test_codes :
    FaultCause.fetchOutOfBounds.number = 1 ∧ FaultCause.loadOutOfBounds.number = 2 ∧
    FaultCause.storeOutOfBounds.number = 3 ∧ FaultCause.arithmeticOverflow.number = 4 ∧
    FaultCause.unrecognizedFunctFault.number = 5 ∧ DiagCode.unrecognizedOpcode.number = 32 ∧
    DiagCode.unrecognizedFunct.number = 33 := by decide

/-! ## The loader -/

/-- The first two cells and the count after a launch at the defaults. -/
def launched (bytes : List Byte) : Option (Word × Word × Nat) :=
  match launch Config.Switches.default .zero bytes with
  | .ok s => some (cell s 0, cell s 1, s.instructionCount)
  | .error _ => none

-- V73, V74, V75
theorem test_load_big_endian : launched [0x12, 0x34, 0x56, 0x78] = some (0x12345678#32, 0#32, 1) := by decide
theorem test_load_two_words :
    launched [0x00, 0x22, 0x18, 0x20, 0x20, 0x04, 0x00, 0x05] =
      some (0x00221820#32, 0x20040005#32, 2) := by decide
theorem test_load_sentinel :
    launched [0x20, 0x04, 0x00, 0x05, 0, 0, 0, 0, 0xFF, 0xFF] = some (0x20040005#32, 0#32, 1) := by decide
-- V76, V77
theorem test_load_partial_word : launched [0x20, 0x04, 0x00, 0x05, 0x00, 0x22] = none := by decide
theorem test_load_empty : launched [] = some (0#32, 0#32, 0) := by decide

/-! ## Witnesses: the hypotheses of each statement, met together, at the boundaries of its clauses -/

/-- A state about to execute `add r3, r1, r2`. -/
def addState (a b : Word) : State := start 0 0x00221820#32 [(1, a), (2, b)] []

theorem witness_WordViewsAreModularAndSigned :
    (-2147483648 : Int) ≤ 2147483647 ∧ sval (word 2147483647) = 2147483647 ∧
    sval (word (-2147483648)) = -2147483648 := by decide
theorem witness_SignExtensionOfSixteenBits :
    sext16 32767 = 32767 ∧ sext16 32768 = -32768 ∧ sext16 65535 = -1 ∧
    sext16 ((-32768 : Int) % 65536).toNat = -32768 ∧
    opcodeField 0x10220002#32 = 4 ∧ opcodeField 0x2021FFFF#32 = 8 ∧ opcodeField 0x8C050008#32 = 35 ∧
    opcodeField 0xAC24FFFC#32 = 43 := by decide
theorem witness_DecodeOfEncodeIsIdentity : (Instr.lw 5 (-32768) 31).wellFormed = true := by decide
theorem witness_EncodeOfDecodeIsIdentity :
    decode 0x00221960#32 = .instr (.add 3 1 2 5) := by decide
theorem witness_encodings :
    0x00221820#32 &&& 0xFC00003F#32 = 0x00000020#32 ∧ 0x00221822#32 &&& 0xFC00003F#32 = 0x00000022#32 ∧
    0x00221824#32 &&& 0xFC00003F#32 = 0x00000024#32 ∧ 0x00221825#32 &&& 0xFC00003F#32 = 0x00000025#32 ∧
    0x0022182A#32 &&& 0xFC00003F#32 = 0x0000002A#32 ∧ 0x0BFFFFFF#32 &&& 0xFC000000#32 = 0x08000000#32 ∧
    0x10220002#32 &&& 0xFC000000#32 = 0x10000000#32 ∧ 0x20040005#32 &&& 0xFC000000#32 = 0x20000000#32 ∧
    0x8C050008#32 &&& 0xFC000000#32 = 0x8C000000#32 ∧ 0xAC24FFFC#32 &&& 0xFC000000#32 = 0xAC000000#32 := by
  decide
theorem witness_AddWritesSumOrRaisesOverflow :
    (addState 0x7FFFFFFF#32 1#32).switches.overflowMode = .wrap ∧
    (trapping (addState 0x7FFFFFFF#32 0#32)).switches.overflowMode = .fault ∧
    sval ((addState 0x7FFFFFFF#32 0#32).reg 1) + sval ((addState 0x7FFFFFFF#32 0#32).reg 2) = 2147483647 ∧
    sval ((addState 0x7FFFFFFF#32 1#32).reg 1) + sval ((addState 0x7FFFFFFF#32 1#32).reg 2) = 2147483648 ∧
    sval ((addState 0x80000000#32 0#32).reg 1) + sval ((addState 0x80000000#32 0#32).reg 2) = -2147483648 := by
  decide
theorem witness_SubWritesDifferenceOrRaisesOverflow :
    sval ((addState 0x80000000#32 0#32).reg 1) - sval ((addState 0x80000000#32 0#32).reg 2) = -2147483648 ∧
    sval ((addState 0x80000000#32 1#32).reg 1) - sval ((addState 0x80000000#32 1#32).reg 2) = -2147483649 ∧
    (addState 0x80000000#32 1#32).switches.overflowMode = .wrap ∧
    (trapping (addState 0x80000000#32 1#32)).switches.overflowMode = .fault := by decide
theorem witness_AddiWritesSumOrRaisesOverflow :
    sval ((addState 0x7FFFFFFF#32 0#32).reg 1) + 0 = 2147483647 ∧
    sval ((addState 0x7FFFFFFF#32 0#32).reg 1) + 1 = 2147483648 ∧
    (addKeyed (addState 0#32 0#32)).switches.addiAluKey = .add := by decide
theorem witness_LoadAndStoreIndices :
    Int.tdiv (sval ((addState 1020#32 0#32).reg 1) + 3) 4 = 255 ∧
    Int.tdiv (sval ((addState 1020#32 0#32).reg 1) + 4) 4 = 256 ∧
    Int.tdiv (sval ((addState 0#32 0#32).reg 1) + -3) 4 = 0 ∧
    Int.tdiv (sval ((addState 0#32 0#32).reg 1) + -4) 4 = -1 := by decide
theorem witness_RegisterZeroIsOrdinary :
    (addState 0#32 0#32).switches.overflowMode = .wrap ∧
    effectiveIndex (addState 0#32 0#32) 1 (-3) = 0 ∧ effectiveIndex (addState 0#32 0#32) 1 1023 = 255 := by
  decide
theorem witness_SourcesAreReadBeforeTheWrite :
    (addState 8#32 0#32).switches.overflowMode = .wrap ∧ effectiveIndex (addState 8#32 0#32) 1 0 = 2 := by
  decide
theorem witness_RegisterInstructionsFrame :
    (Instr.add 3 1 2 0).destination = some 3 ∧
    ∃ t, exec (.add 3 1 2 0) (addState 1#32 2#32) = .next t ∧ t.reg 3 = 3#32 :=
  ⟨rfl, _, rfl, by decide⟩
theorem witness_StoreFrame :
    ∃ t, exec (.sw 1 1020 0) (addState 1#32 2#32) = .next t ∧ t.mem.readByte 1023 = 1#8 :=
  ⟨_, rfl, by decide⟩
theorem witness_ControlFrame :
    (Instr.beq 1 2 (-5)).isControl = true ∧
    ∃ t, exec (.beq 1 2 (-5)) (addState 1#32 1#32) = .next t ∧ t.pc = -5 :=
  ⟨rfl, _, rfl, by decide⟩
theorem witness_StatisticsFollowTheTable :
    (addState 1#32 2#32).safe ∧
    (∃ t, exec (.add 3 1 2 0) (addState 1#32 2#32) = .next t ∧ t.safe) ∧
    (∃ t, exec (.lw 3 1024 0) (addState 1#32 2#32) = .next t ∧ ¬t.safe) :=
  ⟨by decide, ⟨_, rfl, by decide⟩, ⟨_, rfl, by decide⟩⟩
theorem witness_EffectiveIndexTruncatesTowardZero :
    effectiveIndex (addState 0#32 0#32) 1 3 = 0 ∧ effectiveIndex (addState 0#32 0#32) 1 4 = 1 ∧
    effectiveIndex (addState 0#32 0#32) 1 7 = 1 ∧ effectiveIndex (addState 0#32 0#32) 1 (-4) = -1 ∧
    effectiveIndex (addState 0#32 0#32) 1 (-7) = -1 ∧ effectiveIndex (addState 0#32 0#32) 1 1024 = 256 := by
  decide
-- V57: the exact sum is below -2^31
theorem witness_AddressWrapChangesNoAccess :
    imm16Ok (-1) ∧ effectiveIndex (addState 0x80000000#32 0#32) 1 (-1) = -536870912 ∧
    truncDiv (sval (word (sval (0x80000000#32) + -1))) 4 = 536870911 := by decide
theorem witness_LoadAfterStoreReadsTheStoredWord :
    (addState 5#32 0#32).mem.wf = true ∧ effectiveIndex (addState 5#32 0#32) 2 1023 = 255 := by decide
theorem witness_StoreIsSeenByTheNextFetch :
    let s : State := { addState 0x20040005#32 4#32 with pc := 1, instructionCount := 2 }
    s.mem.wf = true ∧ s.fetching ∧ 0 ≤ s.pc ∧ s.pc ≤ 255 ∧ effectiveIndex s 2 0 = s.pc := by decide
theorem witness_StepRunsTheDecodedInstruction :
    (addState 1#32 2#32).fetching ∧ (addState 1#32 2#32).memRead 0 = some 0x00221820#32 ∧
    decode 0x00221820#32 = .instr (.add 3 1 2 0) ∧
    ∃ t, exec (.add 3 1 2 0) { addState 1#32 2#32 with
      observeCount := (addState 1#32 2#32).observeCount + 1, pc := (addState 1#32 2#32).pc + 1 } = .next t :=
  ⟨by decide, by decide, by decide, _, rfl⟩
theorem witness_FetchReadsTheCellOrFaults :
    (start 0 0#32 [] []).fetching ∧ (start 255 0#32 [] []).fetching ∧
    ({ start 0 0#32 [] [] with pc := -1 } : State).fetching ∧
    ({ start 0 0#32 [] [] with pc := 256, instructionCount := 257 } : State).fetching := by decide
theorem witness_UnrecognizedWordIsAReportedNoOp :
    (start 0 0x04000000#32 [] []).memRead 0 = some 0x04000000#32 ∧
    decode 0x04000000#32 = .unrecognizedOpcode ∧ (start 0 0#32 [] []).memRead 0 = some 0#32 ∧
    decode 0#32 = .unrecognizedFunct ∧ (start 0 0#32 [] []).switches.unknownFunctMode = .nop ∧
    (strict (start 0 0#32 [] [])).switches.unknownFunctMode = .fault ∧
    (strict (start 0 0#32 [] [])).fetching := by decide
theorem witness_HaltLeavesEverythingElse :
    State.reset.live ∧ (State.reset.instructionCount : Int) ≤ State.reset.pc := by decide
theorem witness_TerminalStatesHaveNoStep :
    (after State.reset).runState = .halted ∧
    (after (start 0 0x8C05FFFC#32 [] [])).runState = .faulted := by decide
/-- For the statements about any step that answers a next state, with the invariants they assume. -/
theorem witness_step :
    (addState 1#32 2#32).live ∧ (addState 1#32 2#32).mem.wf = true ∧ (addState 1#32 2#32).pcInRange ∧
    (addState 1#32 2#32).countersAgree ∧ (addState 1#32 2#32).keysAgree ∧ (addState 1#32 2#32).observesAgree ∧
    (addState 1#32 2#32).recordAgrees ∧ (addState 1#32 2#32).readyIsInitial ∧
    ∃ t, step (addState 1#32 2#32) = .next t ∧ t.runState = .running :=
  ⟨by decide, by decide, by decide, by decide, by decide, by decide, by decide, by decide, _, rfl, by decide⟩
/-- For the statements about a step that faults. -/
theorem witness_step_to_faulted :
    ∃ t, step (start 0 0x8C05FFFC#32 [] []) = .next t ∧ t.runState = .faulted ∧
      (start 0 0x8C05FFFC#32 [] []).switches = Config.Switches.default :=
  ⟨_, rfl, by decide, by decide⟩
/-- For the statements about a step that faults at the fetch. -/
theorem witness_step_to_fetch_fault :
    ∃ t, step { start 0 0#32 [] [] with pc := -1 } = .next t ∧
      t.faultRecord = some { cause := .fetchOutOfBounds, faultPc := -1, info := -1 } :=
  ⟨_, rfl, by decide⟩
/-- For the events of a step that ends the run. -/
theorem witness_step_to_halted : ∃ t, step State.reset = .next t ∧ t.runState = .halted :=
  ⟨_, rfl, by decide⟩
theorem witness_DefaultSwitchesAllowThreeCauses :
    (addState 1#32 1#32).safe ∧ ∃ t, exec (.beq 1 2 7) (addState 1#32 1#32) = .next t :=
  ⟨by decide, _, rfl⟩
theorem witness_CountersAndEventsDoNotInfluenceTheProgram :
    let s := addState 1#32 2#32
    let s' : State := { s with
      runState := .ready
      cycleCount := 99
      memoryReadCount := 7
      diagLog := [{ code := .unrecognizedFunct, faultPc := 3, word := 0#32 }] }
    s.live ∧ s'.live ∧ s.sameView s' ∧ s ≠ s' ∧ ∃ t, step s = .next t :=
  ⟨by decide, by decide, by decide, by decide, _, rfl⟩
theorem launch_arbitrary_empty (regs : Vector Word 32) (cells : Vector Word 256) :
    ∃ s, launch Config.Switches.default (.arbitrary regs cells) [] = .ok s ∧ s.regs = regs :=
  ⟨_, rfl, rfl⟩
theorem witness_LaunchMeetsTheInvariants :
    (match launch (trapping State.reset).switches .zero [0x20, 0x04, 0x00, 0x05] with
      | .ok s => s.instructionCount
      | .error _ => 0) = 1 := by decide
theorem witness_LaunchLeavesTheResetState :
    ∃ s, launch Config.Switches.default (.arbitrary (Vector.replicate 32 7#32)
      (Vector.replicate 256 9#32)) [] = .ok s ∧ s.regs = Vector.replicate 32 7#32 :=
  launch_arbitrary_empty (Vector.replicate 32 7#32) (Vector.replicate 256 9#32)
/-- Both key sets, each kept by a step. -/
theorem witness_StepKeepsAluKeySet :
    (start 0 0x20040005#32 [] []).keysAgree ∧ (addKeyed (start 0 0x20040005#32 [] [])).keysAgree ∧
    ∃ t, step (addKeyed (start 0 0x20040005#32 [] [])) = .next t ∧ t.aluOpCounts.lookup .addi = none :=
  ⟨by decide, by decide, _, rfl, by decide⟩
theorem witness_AluOpCountsFollowTheKeySet :
    (∃ s, launch (addKeyed State.reset).switches .zero [] = .ok s ∧ s.aluOpCounts.lookup .addi = none ∧
      s.aluOpCounts.lookup .slt = some 0) ∧
    (addState 1#32 2#32).safe ∧
    (∃ t, exec (.addi 4 0 5) (addState 1#32 2#32) = .next t ∧ t.safe ∧
      t.aluOpCounts.lookup .addi = some 1) :=
  ⟨⟨_, rfl, by decide, by decide⟩, by decide, _, rfl, by decide, by decide⟩
theorem witness_LoaderPlacesTheProgram :
    (∀ w ∈ [0x20040005#32, 0x10000002#32], w ≠ 0#32) ∧ [0x20040005#32, 0x10000002#32].length ≤ 256 ∧
    ∃ rest : List Byte, [0, 0, 0, 0, 0xFF] = 0 :: 0 :: 0 :: 0 :: rest :=
  ⟨by simp, by simp, [0xFF], rfl⟩
theorem witness_LoaderRefusesMalformedInput :
    (∀ w ∈ List.replicate 257 1#32, w ≠ 0#32) ∧ 257 ≤ (List.replicate 257 1#32).length ∧
    1 ≤ [(0 : Byte)].length ∧ [(0 : Byte), 0, 0].length ≤ 3 :=
  ⟨fun w h => by rw [List.eq_of_mem_replicate h]; decide, by rw [List.length_replicate], by decide, by decide⟩
theorem witness_BranchToItselfNeverEnds :
    (start 0 0x1000FFFF#32 [] []).fetching ∧
    (start 0 0x1000FFFF#32 [] []).memRead (start 0 0x1000FFFF#32 [] []).pc = some 0x1000FFFF#32 := by decide

end Sys2Proof.Tests
end

section
/-! PROOFS. The word views of spec/00_scope.md R10, one law per view and per round trip. -/

namespace Sys2Proof

/-- Bit 31 is the sign bit. -/
theorem getLsbD_31_eq_msb (w : Word) : w.getLsbD 31 = w.msb :=
  (BitVec.msb_eq_getLsbD_last w).symm

@[simp] theorem uval_word (n : Int) : (uval (word n) : Int) = n % 4294967296 := by
  have hnonneg : 0 ≤ n % 4294967296 := Int.emod_nonneg n (by decide)
  rw [uval, word, BitVec.toNat_ofInt]
  exact Int.toNat_of_nonneg hnonneg

theorem sval_eq_uval_sub (w : Word) :
    sval w = if w.getLsbD 31 = false then (uval w : Int) else (uval w : Int) - 4294967296 := by
  rw [getLsbD_31_eq_msb, sval, uval, BitVec.toInt_eq_msb_cond]
  cases w.msb <;> rfl

@[simp] theorem word_sval (w : Word) : word (sval w) = w := BitVec.ofInt_toInt

/-- The round trip on exactly the range of `sval`. -/
theorem sval_word {n : Int} (hlo : -2147483648 ≤ n) (hhi : n ≤ 2147483647) : sval (word n) = n :=
  BitVec.toInt_ofInt_eq_self (by decide) hlo (Int.lt_add_one_of_le hhi)

/-- Settles O1: the four laws of R10, each proved above. -/
theorem wordViewsAreModularAndSigned : Obligations.WordViewsAreModularAndSigned :=
  ⟨uval_word, sval_eq_uval_sub, word_sval, fun _ => sval_word⟩

end Sys2Proof
end

section
/-! PROOFS. The events of one step (spec/00_scope.md R7, spec/40_cycle.md R100 and R101,
spec/60_exceptions.md R203 and R206). -/

namespace Sys2Proof.Machine

/-- The events of a step that answers `t`, read off the diagnostics it adds to the log. -/
theorem stepEvents_of_next {s t : State} {ds : List Diag} (h : step s = .next t)
    (hd : t.diagLog = s.diagLog ++ ds) :
    stepEvents s =
      .observe (if t.runState = .halted then t.snapshot else s.snapshot) :: ds.map .diag := by
  have hdrop : t.diagLog.drop s.diagLog.length = ds := by rw [hd, List.drop_left]
  simp only [stepEvents, h, hdrop]
  cases t.runState <;> rfl

@[simp] theorem completeCycle_observeCount (s : State) :
    (completeCycle s).observeCount = s.observeCount := by rw [completeCycle_eq]

@[simp] theorem completeCycle_diagLog (s : State) : (completeCycle s).diagLog = s.diagLog := by
  rw [completeCycle_eq]

/-- A cycle ends in `Faulted` exactly when its execute raised a fault. -/
theorem completeCycle_runState_eq_faulted {s : State} :
    (completeCycle s).runState = .faulted ↔ s.runState = .faulted := by
  rw [completeCycle_eq]
  by_cases h : s.runState = .faulted <;> simp [h]

/-- Only the halt step reaches `Halted`: the end of a cycle does not. -/
theorem completeCycle_runState_ne_halted (s : State) : (completeCycle s).runState ≠ .halted := by
  rw [completeCycle_eq]
  by_cases h : s.runState = .faulted <;> simp [h]

/-- An execute adds at most one diagnostic, and none when it raises a fault. -/
theorem execute_diagLog {d : Decoded} {w : Word} {s t : State} (hs : s.runState ≠ .faulted)
    (h : execute d w s = .next t) :
    ∃ ds : List Diag, ds.length ≤ 1 ∧ t.diagLog = s.diagLog ++ ds ∧
      (t.runState = .faulted → ds = []) := by
  obtain ⟨-, ⟨hrun, -, ds, hds, hlen⟩ | ⟨c, info, -, -, -, rfl⟩⟩ := execute_frame h
  · exact ⟨ds, hlen, hds, fun hf => absurd (hrun ▸ hf) hs⟩
  · exact ⟨[], Nat.zero_le 1, (List.append_nil _).symm, fun _ => rfl⟩

/-- Every step counts one `Observe`: the halt's, or the one its cycle begins with. -/
theorem step_observeCount {s t : State} (h : step s = .next t) :
    t.observeCount = s.observeCount + 1 := by
  cases step_next h with
  | halt _ _ => rfl
  | fetchFault _ _ _ => rfl
  | executed w u _ _ _ _ hu =>
    obtain ⟨⟨-, -, -, hobs⟩, -⟩ := execute_frame hu
    rw [completeCycle_observeCount, hobs]
    rfl

/-- Every step adds at most one diagnostic to the log, and none with a fault or a halt. -/
theorem step_diagLog {s t : State} (h : step s = .next t) :
    ∃ ds : List Diag, ds.length ≤ 1 ∧ t.diagLog = s.diagLog ++ ds ∧
      (t.runState = .faulted → ds = []) ∧ (t.runState = .halted → ds = []) := by
  cases step_next h with
  | halt _ _ => exact ⟨[], Nat.zero_le 1, (List.append_nil _).symm, fun _ => rfl, fun _ => rfl⟩
  | fetchFault _ _ _ =>
    exact ⟨[], Nat.zero_le 1, (List.append_nil _).symm, fun _ => rfl, fun _ => rfl⟩
  | executed w u hl _ _ _ hu =>
    have hs : s.afterFetch.runState ≠ .faulted := hl.not_terminal.1
    obtain ⟨ds, hlen, hds, hfault⟩ := execute_diagLog hs hu
    rw [completeCycle_diagLog, completeCycle_runState_eq_faulted]
    exact ⟨ds, hlen, hds, hfault, fun hh => absurd hh (completeCycle_runState_ne_halted u)⟩

/-- Settles O42: the diagnostics are those the step adds to the log, by cases on what a step can do. -/
theorem stepEventsAreOneObserveThenDiagnostics :
    Obligations.StepEventsAreOneObserveThenDiagnostics := by
  intro s t h
  obtain ⟨ds, hlen, hds, hfault, hhalt⟩ := step_diagLog h
  exact ⟨ds, hlen, hds, step_observeCount h, hfault, hhalt, stepEvents_of_next h hds⟩

end Sys2Proof.Machine
end

section
/-! PROOFS. What a fetched word and the end of a cycle can do to the state, field by field (spec/10_state.md
R22 to R33, spec/40_cycle.md R100 and R105): the layer the laws of the state below rest on. -/

namespace Sys2Proof

theorem decodeFunct_wellFormed {w : Word} {i : Instr} (h : decodeFunct w = .instr i) :
    i.wellFormed = true := by
  rcases decodeFunct_cases w with ⟨-, e⟩ | ⟨-, e⟩ | ⟨-, e⟩ | ⟨-, e⟩ | ⟨-, e⟩ | ⟨-, e⟩ <;>
    rw [e] at h <;> cases h <;> rfl

/-- A decoded instruction's operands fit their fields (R72, R74). -/
theorem decode_wellFormed {w : Word} {i : Instr} (h : decode w = .instr i) :
    i.wellFormed = true := by
  have himm : imm16Ok (sext16 (immField w)) := immField_range w
  rcases decode_cases w with ⟨-, e⟩ | ⟨-, e⟩ | ⟨-, e⟩ | ⟨-, e⟩ | ⟨-, e⟩ | ⟨-, e⟩ | ⟨-, e⟩ <;>
    rw [e] at h
  · exact decodeFunct_wellFormed h
  · cases h; exact decide_eq_true (targetField_range w)
  · cases h; exact decide_eq_true himm
  · cases h; exact decide_eq_true himm
  · cases h; exact decide_eq_true himm
  · cases h; exact decide_eq_true himm
  · cases h

end Sys2Proof

namespace Sys2Proof.Machine

/-! ### `completeCycle`, one lemma per field -/

@[simp] theorem completeCycle_regs (s : State) : (completeCycle s).regs = s.regs := by
  rw [completeCycle_eq]
@[simp] theorem completeCycle_mem (s : State) : (completeCycle s).mem = s.mem := by
  rw [completeCycle_eq]
@[simp] theorem completeCycle_pc (s : State) : (completeCycle s).pc = s.pc := by
  rw [completeCycle_eq]
@[simp] theorem completeCycle_instructionCount (s : State) :
    (completeCycle s).instructionCount = s.instructionCount := by rw [completeCycle_eq]
@[simp] theorem completeCycle_aluOpCounts (s : State) :
    (completeCycle s).aluOpCounts = s.aluOpCounts := by rw [completeCycle_eq]
@[simp] theorem completeCycle_instructionTypeCounts (s : State) :
    (completeCycle s).instructionTypeCounts = s.instructionTypeCounts := by rw [completeCycle_eq]
@[simp] theorem completeCycle_memoryReadCount (s : State) :
    (completeCycle s).memoryReadCount = s.memoryReadCount := by rw [completeCycle_eq]
@[simp] theorem completeCycle_memoryWriteCount (s : State) :
    (completeCycle s).memoryWriteCount = s.memoryWriteCount := by rw [completeCycle_eq]
@[simp] theorem completeCycle_faultRecord (s : State) :
    (completeCycle s).faultRecord = s.faultRecord := by rw [completeCycle_eq]
@[simp] theorem completeCycle_switches (s : State) :
    (completeCycle s).switches = s.switches := by rw [completeCycle_eq]
theorem completeCycle_cycleCount (s : State) : (completeCycle s).cycleCount =
    if s.runState = .faulted then s.cycleCount else s.cycleCount + 1 := by rw [completeCycle_eq]
theorem completeCycle_runState (s : State) : (completeCycle s).runState =
    if s.runState = .faulted then .faulted else .running := by rw [completeCycle_eq]

/-! ### What an execute does to memory, `pc` and the counters -/

/-- An execute writes at most one cell of the array. -/
theorem execute_mem {d : Decoded} {w : Word} {s t : State} (h : execute d w s = .next t) :
    t.mem = s.mem ∨ ∃ (k : Nat) (v : Word), k < 256 ∧ t.mem = s.mem.writeCell k v := by
  rcases execute_next h with ⟨i, -, he⟩ | ⟨-, rfl⟩ | ⟨-, -, rfl⟩ | ⟨-, -, rfl⟩
  · cases he with
    | store rt offset rs _ hin => exact .inr ⟨_, s.reg rt, by omega, rfl⟩
    | _ => exact .inl rfl
  · exact .inl rfl
  · exact .inl rfl
  · exact .inl rfl

/-- An execute keeps `pc`, adds a sign-extended offset to it, or sets it to a jump target (R25). -/
theorem execute_pc {w : Word} {s t : State} (h : execute (decode w) w s = .next t) :
    t.pc = s.pc ∨ (∃ offset : Int, imm16Ok offset ∧ t.pc = s.pc + offset) ∨
      ∃ target : Nat, target26Ok target ∧ t.pc = target := by
  rcases execute_next h with ⟨i, hd, he⟩ | ⟨-, rfl⟩ | ⟨-, -, rfl⟩ | ⟨-, -, rfl⟩
  · have hwf := decode_wellFormed hd
    cases he with
    | jump target hi =>
      subst hi
      exact .inr (.inr ⟨target, of_decide_eq_true hwf, rfl⟩)
    | branch rs rt offset p hi hp =>
      subst hi
      rcases hp with ⟨-, rfl⟩ | ⟨-, rfl⟩
      · exact .inr (.inl ⟨offset, of_decide_eq_true hwf, rfl⟩)
      · exact .inl rfl
    | _ => exact .inl rfl
  · exact .inl rfl
  · exact .inl rfl
  · exact .inl rfl

/-- What a transition may do to the counters of R29 to R31: each keeps its value or counts one event, under
a key of the mode's key set. -/
structure CountsAtMostOne (s t : State) : Prop where
  alu : t.aluOpCounts = s.aluOpCounts ∨
    ∃ k ∈ aluKeySet s.switches.addiAluKey, t.aluOpCounts = s.aluOpCounts.inc k
  type : t.instructionTypeCounts = s.instructionTypeCounts ∨
    ∃ k, t.instructionTypeCounts = s.instructionTypeCounts.inc k
  memoryRead : t.memoryReadCount = s.memoryReadCount ∨ t.memoryReadCount = s.memoryReadCount + 1
  memoryWrite : t.memoryWriteCount = s.memoryWriteCount ∨ t.memoryWriteCount = s.memoryWriteCount + 1

/-- A transition that writes none of the counters. -/
theorem CountsAtMostOne.of_eq {s t : State} (ha : t.aluOpCounts = s.aluOpCounts)
    (ht : t.instructionTypeCounts = s.instructionTypeCounts)
    (hr : t.memoryReadCount = s.memoryReadCount) (hw : t.memoryWriteCount = s.memoryWriteCount) :
    CountsAtMostOne s t := ⟨.inl ha, .inl ht, .inl hr, .inl hw⟩

theorem ExecEffect.countsAtMostOne {i : Instr} {s t : State} (h : ExecEffect i s t) :
    CountsAtMostOne s t := by
  cases h with
  | raised c info hc => exact .of_eq rfl rfl rfl rfl
  | alu rd v ak hd hk hl hs hc =>
    exact ⟨.inr ⟨ak, aluKey_mem_aluKeySet hk, rfl⟩, .inr ⟨i.typeKey, rfl⟩, .inl rfl, .inl rfl⟩
  | load rt offset rs hi hin => exact ⟨.inl rfl, .inr ⟨.lw, rfl⟩, .inr rfl, .inl rfl⟩
  | store rt offset rs hi hin => exact ⟨.inl rfl, .inr ⟨.sw, rfl⟩, .inl rfl, .inr rfl⟩
  | jump target hi => exact ⟨.inl rfl, .inr ⟨.j, rfl⟩, .inl rfl, .inl rfl⟩
  | branch rs rt offset p hi hp =>
    have hsub : AluKey.sub ∈ aluKeySet s.switches.addiAluKey :=
      aluKey_mem_aluKeySet (i := .beq rs rt offset) rfl
    exact ⟨.inr ⟨.sub, hsub, rfl⟩, .inr ⟨.beq, rfl⟩, .inl rfl, .inl rfl⟩

theorem execute_countsAtMostOne {d : Decoded} {w : Word} {s t : State}
    (h : execute d w s = .next t) : CountsAtMostOne s t := by
  rcases execute_next h with ⟨i, -, he⟩ | ⟨-, rfl⟩ | ⟨-, -, rfl⟩ | ⟨-, -, rfl⟩
  · exact he.countsAtMostOne
  · exact .of_eq rfl rfl rfl rfl
  · exact .of_eq rfl rfl rfl rfl
  · exact .of_eq rfl rfl rfl rfl

theorem step_countsAtMostOne {s t : State} (h : step s = .next t) : CountsAtMostOne s t := by
  cases step_next h with
  | halt _ _ => exact .of_eq rfl rfl rfl rfl
  | fetchFault _ _ _ => exact .of_eq rfl rfl rfl rfl
  | executed w u _ _ _ _ hu =>
    obtain ⟨ha, ht, hr, hw⟩ := execute_countsAtMostOne hu
    exact ⟨by simpa using ha, by simpa using ht, by simpa using hr, by simpa using hw⟩

/-- An execute goes on with the run state and the record it found, or raises a fault (R204). -/
theorem execute_runState {d : Decoded} {w : Word} {s t : State} (h : execute d w s = .next t) :
    (t.runState = s.runState ∧ t.faultRecord = s.faultRecord) ∨
      (t.runState = .faulted ∧ t.faultRecord ≠ none) := by
  obtain ⟨-, ⟨hrun, hrec, -⟩ | ⟨c, info, -, -, -, rfl⟩⟩ := execute_frame h
  · exact .inl ⟨hrun, hrec⟩
  · exact .inr ⟨rfl, Option.some_ne_none _⟩

end Sys2Proof.Machine
end

section
/-! PROOFS. The invariants of the state that every step keeps, and their start at a launch
(spec/10_state.md R24 to R33, spec/70_reset_and_hazards.md R240 and R241). -/

namespace Sys2Proof.Machine

/-- Settles O43: the one cell an execute may write is a cell of the array, and such a write keeps the form. -/
theorem stepKeepsMemoryCanonical : Obligations.StepKeepsMemoryCanonical := by
  intro s t hwf h
  cases step_next h with
  | halt _ _ => exact hwf
  | fetchFault _ _ _ => exact hwf
  | executed w u _ _ _ _ hu =>
    rw [completeCycle_mem]
    rcases execute_mem hu with hmem | ⟨k, v, hk, hmem⟩ <;> rw [hmem]
    · exact hwf
    · exact Memory.wf_writeCell v hk hwf

/-- Settles O44: a fetch leaves `pc` in `[1, 256]`, so that the lowest branch target is `1 - 32768`. -/
theorem stepKeepsPcInRange : Obligations.StepKeepsPcInRange := by
  intro s t hpc h
  cases step_next h with
  | halt _ _ => exact hpc
  | fetchFault _ _ _ => exact hpc
  | executed w u _ _ hin _ hu =>
    have hfetched : s.afterFetch.pc = s.pc + 1 := rfl
    rw [State.pcInRange, completeCycle_pc]
    rcases execute_pc hu with hp | ⟨offset, ho, hp⟩ | ⟨target, ht, hp⟩
    · omega
    · obtain ⟨hlo, hhi⟩ := ho
      omega
    · rw [target26Ok] at ht
      omega

/-- Settles O36: the end of a cycle, the halt and a fault each write another run state. -/
theorem noStepReentersReady : Obligations.NoStepReentersReady := by
  intro s t h
  cases step_next h with
  | halt _ _ => exact nofun
  | fetchFault _ _ _ => exact nofun
  | executed w u _ _ _ _ hu =>
    rw [completeCycle_runState]
    split <;> exact nofun

/-- Settles O37: no execute writes either field. -/
theorem programLengthIsFixed : Obligations.ProgramLengthIsFixed := by
  intro s t h
  cases step_next h with
  | halt _ _ => exact ⟨rfl, rfl⟩
  | fetchFault _ _ _ => exact ⟨rfl, rfl⟩
  | executed w u _ _ _ _ hu =>
    obtain ⟨⟨hcount, -, hswitches, -⟩, -⟩ := execute_frame hu
    rw [completeCycle_instructionCount, completeCycle_switches]
    exact ⟨hcount, hswitches⟩

/-- Settles O38: the cycle is counted where the run state becomes `Running`, at its end. -/
theorem cycleCountCountsCompletedCycles : Obligations.CycleCountCountsCompletedCycles := by
  intro s t h
  cases step_next h with
  | halt _ _ => rfl
  | fetchFault _ _ _ => rfl
  | executed w u _ _ _ _ hu =>
    obtain ⟨⟨-, (hcycles : u.cycleCount = s.cycleCount), -, -⟩, -⟩ := execute_frame hu
    rw [completeCycle_cycleCount, completeCycle_runState, hcycles]
    by_cases hf : u.runState = .faulted <;> simp [hf]

/-- Settles O47: a live state has no record, and an execute writes one exactly when it raises a fault. -/
theorem stepKeepsFaultRecord : Obligations.StepKeepsFaultRecord := by
  intro s t hrec _ h
  refine ⟨?_, fun hready => absurd hready (noStepReentersReady s t h)⟩
  have hrunning : s.runState ≠ .faulted := (live_of_step h).not_terminal.1
  have hnone : s.faultRecord = none := by
    by_contra hsome
    exact hrunning (hrec.mpr hsome)
  cases step_next h with
  | halt _ _ => simp [State.recordAgrees, hnone]
  | fetchFault _ _ _ => simp [State.recordAgrees]
  | executed w u _ _ _ _ hu =>
    rw [State.recordAgrees, completeCycle_runState_eq_faulted, completeCycle_faultRecord]
    rcases execute_runState hu with ⟨hrun, hkept⟩ | ⟨hrun, hsome⟩
    · rw [hrun, hkept]
      exact hrec
    · exact iff_of_true hrun hsome

/-- Settles O49: the loader keeps memory and the count of words in their form; every other field is the
reset's. -/
theorem launchMeetsTheInvariants : Obligations.LaunchMeetsTheInvariants := by
  intro sw fill bytes s h
  obtain ⟨⟨m, n⟩, hload, rfl⟩ := launch_ok h
  obtain ⟨hmem, hcount⟩ := loadWords_ok bytes (Nat.zero_le 256) fill.wf_memory hload
  have hcounters : InstructionTypeCounts.zero.sum = 0 ∧ (AluOpCounts.zero sw.addiAluKey).sum = 0 :=
    ⟨rfl, AluOpCounts.sum_zero _⟩
  have hpc : State.reset.pcInRange := by decide
  exact ⟨hmem, hpc, hcount, ⟨hcounters.1, hcounters.2, rfl, rfl⟩,
    AluOpCounts.keys_zero sw.addiAluKey, rfl, ⟨nofun, fun hsome => absurd rfl hsome⟩, fun _ => rfl⟩

end Sys2Proof.Machine
end

section
/-! PROOFS. The counters: none decreases, and `aluOpCounts` keeps its key set (spec/10_state.md R28 to
R31). -/

namespace Sys2Proof.Machine

/-- Incrementing any key leaves every key of the map in it, at no smaller a count. -/
theorem AluOpCounts.le_lookup_inc {c : AluOpCounts} {q : AluKey} {n : Nat} (k : AluKey)
    (h : c.lookup q = some n) : ∃ m, (c.inc k).lookup q = some m ∧ n ≤ m := by
  rw [AluOpCounts.lookup_inc]
  by_cases hq : q = k
  · have hget : c.get k = n := by rw [AluOpCounts.get, ← hq, h, Option.getD_some]
    exact ⟨_, if_pos hq, hget ▸ Nat.le_succ _⟩
  · exact ⟨n, (if_neg hq).trans h, le_refl n⟩

theorem CountsAtMostOne.le_aluOpCounts_get {s t : State} (h : CountsAtMostOne s t) (k : AluKey) :
    s.aluOpCounts.get k ≤ t.aluOpCounts.get k := by
  rcases h.alu with ha | ⟨q, -, ha⟩ <;> rw [ha]
  rw [AluOpCounts.get_inc]
  exact Nat.le_add_right _ _

theorem CountsAtMostOne.le_instructionTypeCounts_get {s t : State} (h : CountsAtMostOne s t)
    (k : TypeKey) : s.instructionTypeCounts.get k ≤ t.instructionTypeCounts.get k := by
  rcases h.type with ht | ⟨q, ht⟩ <;> rw [ht]
  rw [InstructionTypeCounts.get_inc]
  exact Nat.le_add_right _ _

/-- Settles O39: every step counts at most one event in each counter, and takes none back. -/
theorem countersNeverDecrease : Obligations.CountersNeverDecrease := by
  intro s t h
  have hcount := step_countsAtMostOne h
  have hcycle : s.cycleCount ≤ t.cycleCount :=
    (cycleCountCountsCompletedCycles s t h).symm ▸ Nat.le_add_right _ _
  have hread := hcount.memoryRead
  have hwrite := hcount.memoryWrite
  exact ⟨hcycle, by omega, by omega, hcount.le_aluOpCounts_get, hcount.le_instructionTypeCounts_get⟩

/-- Settles O56: the one key a step increments is in the mode's key set already. -/
theorem stepKeepsAluKeySet : Obligations.StepKeepsAluKeySet := by
  intro s t hkeys h
  rw [State.keysAgree, (programLengthIsFixed s t h).2]
  rcases (step_countsAtMostOne h).alu with ha | ⟨k, hk, ha⟩ <;> rw [ha]
  · exact hkeys
  · rw [AluOpCounts.keys_inc (hkeys ▸ hk)]
    exact hkeys

/-- A launch leaves exactly the keys of the mode's key set, each at 0 (R241). -/
theorem launch_aluOpCounts_lookup {sw : Config.Switches} {fill : InitFill} {bytes : List Byte}
    {s : State} (h : launch sw fill bytes = .ok s) (k : AluKey) :
    s.aluOpCounts.lookup k = if k ∈ aluKeySet sw.addiAluKey then some 0 else none := by
  obtain ⟨r, -, rfl⟩ := launch_ok h
  exact AluOpCounts.lookup_zero sw.addiAluKey k

/-- An instruction that raises no fault counts under its own key and no other (R29, R105). -/
theorem ExecEffect.aluOpCounts_of_safe {i : Instr} {s t : State} (h : ExecEffect i s t)
    (ht : t.safe) (k : AluKey) : t.aluOpCounts.lookup k =
      if i.aluKey s.switches.addiAluKey = some k then some (s.aluOpCounts.get k + 1)
      else s.aluOpCounts.lookup k := by
  have hinc : ∀ ak : AluKey, (s.aluOpCounts.inc ak).lookup k =
      if some ak = some k then some (s.aluOpCounts.get k + 1) else s.aluOpCounts.lookup k := by
    intro ak
    rw [AluOpCounts.lookup_inc]
    by_cases hk : k = ak
    · simp [hk]
    · simp [hk, Ne.symm hk]
  cases h with
  | raised c info hc => exact absurd rfl ht
  | alu rd v ak hd hk hl hs hc => rw [hk]; exact hinc ak
  | load rt offset rs hi hin => subst hi; rfl
  | store rt offset rs hi hin => subst hi; rfl
  | jump target hi => subst hi; rfl
  | branch rs rt offset p hi hp => subst hi; exact hinc .sub

/-- A step removes no key of `aluOpCounts` and makes none smaller. -/
theorem step_aluOpCounts_lookup_le {s t : State} (h : step s = .next t) {k : AluKey} {n : Nat}
    (hk : s.aluOpCounts.lookup k = some n) : ∃ m, t.aluOpCounts.lookup k = some m ∧ n ≤ m := by
  rcases (step_countsAtMostOne h).alu with ha | ⟨q, -, ha⟩ <;> rw [ha]
  · exact ⟨n, hk, le_refl n⟩
  · exact AluOpCounts.le_lookup_inc q hk

/-- Settles O57: the two key sets by definition, and the laws above. -/
theorem aluOpCountsFollowTheKeySet : Obligations.AluOpCountsFollowTheKeySet :=
  ⟨rfl, rfl, fun _ _ _ _ h => launch_aluOpCounts_lookup h,
    fun _ _ _ _ h ht => (exec_next h).aluOpCounts_of_safe ht,
    fun _ _ h _ _ => step_aluOpCounts_lookup_le h⟩

end Sys2Proof.Machine
end

section
/-! PROOFS. The instructions that write a register: their frame and register 0 (spec/10_state.md R21, R22,
spec/40_cycle.md R107). -/

namespace Sys2Proof.Machine

theorem AluOpCounts.lookup_inc_other (c : AluOpCounts) {k q : AluKey} (h : q ≠ k) :
    (c.inc k).lookup q = c.lookup q := by
  rw [AluOpCounts.lookup_inc, if_neg h]

theorem InstructionTypeCounts.get_inc_other (c : InstructionTypeCounts) {k q : TypeKey} (h : q ≠ k) :
    (c.inc k).get q = c.get q := by
  rw [InstructionTypeCounts.get_inc, if_neg h, Nat.add_zero]

/-- Settles O22: with a destination an instruction raises a fault, writes an ALU result or loads a cell. -/
theorem registerInstructionsFrame : Obligations.RegisterInstructionsFrame := by
  intro i s t rd hd h
  cases exec_next h with
  | raised c info hc =>
    exact ⟨fun _ _ => rfl, fun _ => rfl, rfl, rfl, rfl, rfl, rfl, rfl, rfl, fun _ => rfl,
      fun _ _ => rfl, fun _ _ => rfl, .inr ⟨rfl, rfl⟩⟩
  | alu rd' v ak hd' hk hl hs hc =>
    obtain rfl : rd' = rd := Option.some.inj (hd'.symm.trans hd)
    refine ⟨fun r hr => writeAlu_reg_other s r rd' v _ _ hr, fun _ => rfl, rfl, rfl, rfl, rfl, rfl,
      rfl, rfl, fun _ => rfl, fun k hne => InstructionTypeCounts.get_inc_other _ hne,
      fun k hne => AluOpCounts.lookup_inc_other _ ?_, .inl ⟨rfl, rfl⟩⟩
    rintro rfl
    exact hne hk
  | load rt offset rs hi hin =>
    subst hi
    obtain rfl : rt = rd := Option.some.inj hd
    exact ⟨fun r hr => State.reg_setReg_other s r rt _ hr, fun _ => rfl, rfl, rfl, rfl, rfl, rfl, rfl,
      rfl, nofun, fun k hne => InstructionTypeCounts.get_inc_other _ hne, fun _ _ => rfl,
      .inl ⟨rfl, rfl⟩⟩
  | store rt offset rs hi hin => subst hi; cases hd
  | jump target hi => subst hi; cases hd
  | branch rs rt offset p hi hp => subst hi; cases hd

/-- The result of `add`, `sub` or `addi` that raises no fault is in the destination. -/
theorem reg_writeExact_of_fits {s : State} {n : Int}
    (h : s.switches.overflowMode = .wrap ∨ (-2147483648 ≤ n ∧ n ≤ 2147483647)) (rd : Fin 32)
    (tk : TypeKey) (ak : AluKey) : (writeExact s rd n tk ak).reg rd = word n := by
  rw [writeExact_of_fits h, writeAlu_reg_same]

/-- The result of `slt` (R134). -/
theorem sltResult_eq (a b : Word) :
    (if signedLess a b then word 1 else word 0) = if sval a < sval b then 1#32 else 0#32 := by
  by_cases h : sval a < sval b <;> simp [signedLess, h] <;> rfl

/-- A load inside the array leaves the cell in the destination (R180). -/
theorem exec_lw_of_inside {s : State} {rs : Fin 32} {offset : Int} (rt : Fin 32)
    (h : 0 ≤ effectiveIndex s rs offset ∧ effectiveIndex s rs offset ≤ 255) :
    exec (.lw rt offset rs) s = .next (((s.setReg rt (s.mem.readCell
      (effectiveIndex s rs offset).toNat)).countType .lw).countMemRead) := by
  simp only [exec, execLw, State.memRead_of_inside s h]

/-- Settles O20: each form's own rule at destination 0, and `or` as the read. -/
theorem registerZeroIsOrdinary : Obligations.RegisterZeroIsOrdinary := by
  intro s rs rt sh
  refine ⟨fun h => ⟨_, rfl, reg_writeExact_of_fits h 0 _ _⟩,
    fun h => ⟨_, rfl, reg_writeExact_of_fits h 0 _ _⟩, ⟨_, rfl, writeAlu_reg_same s 0 _ _ _⟩,
    ⟨_, rfl, writeAlu_reg_same s 0 _ _ _⟩,
    ⟨_, rfl, (writeAlu_reg_same s 0 _ _ _).trans (sltResult_eq _ _)⟩,
    fun imm h => ⟨_, rfl, reg_writeExact_of_fits h 0 _ _⟩,
    fun offset hlo hhi => ⟨_, exec_lw_of_inside 0 ⟨hlo, hhi⟩, State.reg_setReg_same s 0 _⟩,
    fun rd => ⟨_, rfl, (writeAlu_reg_same s rd _ _ _).trans BitVec.or_self⟩⟩

end Sys2Proof.Machine
end

section
/-! PROOFS. No program can read a counter, the run state, the fault record or the events (spec/10_state.md
R36, R37): from two states of the same view every operation has the same effect. -/

namespace Sys2Proof.Machine

section

variable {s s' t t' : State}

/-! ### What an operation reads is in the view -/

theorem State.sameView.reg_eq (hv : s.sameView s') (r : Fin 32) : s.reg r = s'.reg r := by
  obtain ⟨hregs, -⟩ := hv
  rw [State.reg, State.reg, hregs]

theorem State.sameView.memRead_eq (hv : s.sameView s') (k : Int) : s.memRead k = s'.memRead k := by
  obtain ⟨-, hmem, -⟩ := hv
  rw [State.memRead, State.memRead, hmem]

theorem State.sameView.currentSlot_eq (hv : s.sameView s') : s.currentSlot = s'.currentSlot := by
  obtain ⟨-, -, hpc, -⟩ := hv
  rw [State.currentSlot, State.currentSlot, hpc]

theorem State.sameView.effectiveIndex_eq (hv : s.sameView s') (rs : Fin 32) (offset : Int) :
    effectiveIndex s rs offset = effectiveIndex s' rs offset := by
  rw [effectiveIndex, effectiveIndex, effectiveAddress, effectiveAddress, hv.reg_eq]

theorem State.sameView.switches_eq (hv : s.sameView s') : s.switches = s'.switches := by
  obtain ⟨-, -, -, -, hsw⟩ := hv
  exact hsw

theorem State.sameView.addiKey_eq (hv : s.sameView s') : addiKey s = addiKey s' := by
  rw [addiKey, addiKey, hv.switches_eq]

/-! ### The same effect -/

/-- What one operation does to two states `s` and `s'` of the same view, leaving `t` and `t'`: the same view,
the same fault or none, the same new diagnostics. -/
structure SameEffect (s s' t t' : State) : Prop where
  view : t.sameView t'
  ending : (t.runState = s.runState ∧ t'.runState = s'.runState) ∨
    (t.runState = .faulted ∧ t'.runState = .faulted ∧ t.faultRecord = t'.faultRecord)
  diags : ∃ ds, t.diagLog = s.diagLog ++ ds ∧ t'.diagLog = s'.diagLog ++ ds

/-- An operation that writes neither the run state nor the log. -/
theorem SameEffect.of_silent (hv : t.sameView t') (hr : t.runState = s.runState)
    (hr' : t'.runState = s'.runState) (hd : t.diagLog = s.diagLog) (hd' : t'.diagLog = s'.diagLog) :
    SameEffect s s' t t' :=
  ⟨hv, .inl ⟨hr, hr'⟩, [], by rw [hd, List.append_nil], by rw [hd', List.append_nil]⟩

theorem raiseFault_sameEffect (hv : s.sameView s') (c : FaultCause) (p info : Int) :
    SameEffect s s' (s.raiseFault c p info) (s'.raiseFault c p info) :=
  ⟨hv, .inr ⟨rfl, rfl, rfl⟩, [], (List.append_nil _).symm, (List.append_nil _).symm⟩

theorem emitDiag_sameEffect (hv : s.sameView s') (c : DiagCode) (p : Int) (w : Word) :
    SameEffect s s' (s.emitDiag c p w) (s'.emitDiag c p w) :=
  ⟨hv, .inl ⟨rfl, rfl⟩, _, rfl, rfl⟩

theorem State.sameView.setReg (hv : s.sameView s') (r : Fin 32) (v : Word) :
    (s.setReg r v).sameView (s'.setReg r v) := by
  obtain ⟨hregs, hrest⟩ := hv
  exact ⟨congrArg (·.set r.val v) hregs, hrest⟩

theorem State.sameView.storeCell (hv : s.sameView s') (k : Nat) (v : Word) :
    (s.storeCell k v).sameView (s'.storeCell k v) := by
  obtain ⟨hregs, hmem, hrest⟩ := hv
  exact ⟨hregs, congrArg (·.writeCell k v) hmem, hrest⟩

theorem State.sameView.setPc (hv : s.sameView s') (p : Int) :
    (s.setPc p).sameView (s'.setPc p) := by
  obtain ⟨hregs, hmem, -, hrest⟩ := hv
  exact ⟨hregs, hmem, rfl, hrest⟩

theorem writeAlu_sameEffect (hv : s.sameView s') (rd : Fin 32) (v : Word) (tk : TypeKey)
    (ak : AluKey) : SameEffect s s' (writeAlu s rd v tk ak) (writeAlu s' rd v tk ak) :=
  .of_silent (hv.setReg rd v) rfl rfl rfl rfl

theorem writeExact_sameEffect (hv : s.sameView s') (rd : Fin 32) (n : Int) (tk : TypeKey)
    (ak : AluKey) : SameEffect s s' (writeExact s rd n tk ak) (writeExact s' rd n tk ak) := by
  simp only [writeExact, ← hv.switches_eq, ← hv.currentSlot_eq]
  split
  · exact raiseFault_sameEffect hv _ _ _
  · exact writeAlu_sameEffect hv rd _ tk ak

/-- Every instruction has the same effect on two states of the same view. -/
theorem exec_sameEffect (hv : s.sameView s') (i : Instr) :
    ∃ t t', exec i s = .next t ∧ exec i s' = .next t' ∧ SameEffect s s' t t' := by
  cases i with
  | add rd rs rt shamt =>
    exact ⟨_, _, rfl, rfl, by rw [hv.reg_eq rs, hv.reg_eq rt]; exact writeExact_sameEffect hv rd _ _ _⟩
  | sub rd rs rt shamt =>
    exact ⟨_, _, rfl, rfl, by rw [hv.reg_eq rs, hv.reg_eq rt]; exact writeExact_sameEffect hv rd _ _ _⟩
  | and rd rs rt shamt =>
    exact ⟨_, _, rfl, rfl, by rw [hv.reg_eq rs, hv.reg_eq rt]; exact writeAlu_sameEffect hv rd _ _ _⟩
  | or rd rs rt shamt =>
    exact ⟨_, _, rfl, rfl, by rw [hv.reg_eq rs, hv.reg_eq rt]; exact writeAlu_sameEffect hv rd _ _ _⟩
  | slt rd rs rt shamt =>
    exact ⟨_, _, rfl, rfl, by rw [hv.reg_eq rs, hv.reg_eq rt]; exact writeAlu_sameEffect hv rd _ _ _⟩
  | j target => exact ⟨_, _, rfl, rfl, .of_silent (hv.setPc target) rfl rfl rfl rfl⟩
  | beq rs rt offset =>
    have ⟨_, _, hpc, _⟩ := hv
    simp only [exec, execBeq, hv.reg_eq, hpc]
    split
    · exact ⟨_, _, rfl, rfl, .of_silent (hv.setPc _) rfl rfl rfl rfl⟩
    · exact ⟨_, _, rfl, rfl, .of_silent hv rfl rfl rfl rfl⟩
  | addi rt rs imm =>
    exact ⟨_, _, rfl, rfl, by rw [hv.reg_eq rs, hv.addiKey_eq]; exact writeExact_sameEffect hv rt _ _ _⟩
  | lw rt offset rs =>
    simp only [exec, execLw, hv.effectiveIndex_eq, hv.memRead_eq, hv.currentSlot_eq]
    cases s'.memRead (effectiveIndex s' rs offset) with
    | none => exact ⟨_, _, rfl, rfl, raiseFault_sameEffect hv _ _ _⟩
    | some v => exact ⟨_, _, rfl, rfl, .of_silent (hv.setReg rt v) rfl rfl rfl rfl⟩
  | sw rt offset rs =>
    simp only [exec, execSw, State.memWrite, hv.effectiveIndex_eq, hv.reg_eq, hv.currentSlot_eq]
    cases cellIndex (effectiveIndex s' rs offset) with
    | none => exact ⟨_, _, rfl, rfl, raiseFault_sameEffect hv _ _ _⟩
    | some k => exact ⟨_, _, rfl, rfl, .of_silent (hv.storeCell k _) rfl rfl rfl rfl⟩

/-- So has every fetched word. -/
theorem execute_sameEffect (hv : s.sameView s') (d : Decoded) (w : Word) :
    ∃ t t', execute d w s = .next t ∧ execute d w s' = .next t' ∧ SameEffect s s' t t' := by
  cases d with
  | instr i => exact exec_sameEffect hv i
  | unrecognizedOpcode =>
    refine ⟨_, _, rfl, rfl, ?_⟩
    rw [execUnrecognizedOpcode, hv.currentSlot_eq]
    exact emitDiag_sameEffect hv _ _ _
  | unrecognizedFunct =>
    refine ⟨_, _, rfl, rfl, ?_⟩
    simp only [execUnrecognizedFunct, hv.currentSlot_eq, hv.switches_eq]
    split
    · exact emitDiag_sameEffect hv _ _ _
    · exact raiseFault_sameEffect hv _ _ _

/-! ### One step -/

/-- `StepEffect` says exactly which state a step answers: the converse of `step_next`. -/
theorem step_of_effect (h : StepEffect s t) : step s = .next t := by
  cases h with
  | halt hl hpc => rw [step_of_live hl, if_neg (Int.not_lt.mpr hpc)]
  | fetchFault hl hpc hout =>
    rw [step_of_live hl, if_pos hpc, cycle_of_outside (State.memRead_of_outside s hout)]
  | executed w u hl hpc hin hw hu =>
    subst hw
    rw [step_of_live hl, if_pos hpc, cycle_of_inside (State.memRead_of_inside s hin), hu]
    rfl

/-- From states that have not faulted, the same effect faults on both sides or on neither. -/
theorem SameEffect.faulted_iff (h : SameEffect s s' t t') (hs : s.runState ≠ .faulted)
    (hs' : s'.runState ≠ .faulted) : t.runState = .faulted ↔ t'.runState = .faulted := by
  rcases h.ending with ⟨hr, hr'⟩ | ⟨hr, hr', -⟩
  · rw [hr, hr']
    exact iff_of_false hs hs'
  · exact iff_of_true hr hr'

theorem SameEffect.faultRecord_eq (h : SameEffect s s' t t') (hs : s.runState ≠ .faulted)
    (ht : t.runState = .faulted) : t.faultRecord = t'.faultRecord := by
  rcases h.ending with ⟨hr, -⟩ | ⟨-, -, hrec⟩
  · exact absurd (hr ▸ ht) hs
  · exact hrec

theorem SameEffect.newDiags_eq (h : SameEffect s s' t t') :
    t.diagLog.drop s.diagLog.length = t'.diagLog.drop s'.diagLog.length := by
  obtain ⟨ds, hd, hd'⟩ := h.diags
  rw [hd, hd', List.drop_left, List.drop_left]

theorem State.sameView.afterFetch (hv : s.sameView s') :
    s.afterFetch.sameView s'.afterFetch := by
  obtain ⟨hregs, hmem, hpc, hrest⟩ := hv
  exact ⟨hregs, hmem, congrArg (· + 1) hpc, hrest⟩

theorem completeCycle_sameView (hv : s.sameView s') :
    (completeCycle s).sameView (completeCycle s') := by
  simpa [State.sameView] using hv

end

/-- Settles O50: the halt test and the fetch read the view, and the execute has the same effect. -/
theorem countersAndEventsDoNotInfluenceTheProgram :
    Obligations.CountersAndEventsDoNotInfluenceTheProgram := by
  intro s s' t hl hl' hv h
  have ⟨_, hmem, hpc, hcount, _⟩ := hv
  cases step_next h with
  | halt _ hend =>
    exact ⟨s'.halt, step_of_effect (.halt hl' (hpc ▸ hcount ▸ hend)), hv, rfl, nofun, by simp⟩
  | fetchFault _ hlt hout =>
    refine ⟨_, step_of_effect (.fetchFault hl' (hpc ▸ hcount ▸ hlt) (hpc ▸ hout)), hv, rfl,
      fun _ => ?_, by simp⟩
    simp [hpc]
  | executed w u _ hlt hin hw hu =>
    obtain ⟨u₁, u', hu₁, hu', heff⟩ := execute_sameEffect hv.afterFetch (decode w) w
    obtain rfl : u = u₁ := by
      rw [hu] at hu₁
      cases hu₁
      rfl
    have hs : s.afterFetch.runState ≠ .faulted := hl.not_terminal.1
    have hs' : s'.afterFetch.runState ≠ .faulted := hl'.not_terminal.1
    refine ⟨completeCycle u', step_of_effect
      (.executed w u' hl' (hpc ▸ hcount ▸ hlt) (hpc ▸ hin) (hmem ▸ hpc ▸ hw) hu'),
      completeCycle_sameView heff.view, ?_, fun hf => ?_, ?_⟩
    · simp only [completeCycle_runState, heff.faulted_iff hs hs']
    · rw [completeCycle_faultRecord, completeCycle_faultRecord]
      exact heff.faultRecord_eq hs (completeCycle_runState_eq_faulted.mp hf)
    · rw [completeCycle_diagLog, completeCycle_diagLog]
      exact heff.newDiags_eq

end Sys2Proof.Machine
end

section
/-! PROOFS. The effective index truncates toward zero, and wrapping the address sum changes no access
(spec/20_memory.md R53, R54). -/

namespace Sys2Proof

theorem sval_range (w : Word) : -2147483648 ≤ sval w ∧ sval w ≤ 2147483647 :=
  ⟨BitVec.le_toInt w, Int.le_of_lt_add_one BitVec.toInt_lt⟩

/-- An integer just below the signed range wraps to its upper end (R10). -/
theorem sval_word_of_below {n : Int} (hlo : -4294967296 ≤ n) (hhi : n < -2147483648) :
    sval (word n) = n + 4294967296 := by
  rw [sval, word, BitVec.toInt_ofInt, Int.bmod_def]
  omega

/-- An integer just above the signed range wraps to its lower end (R10). -/
theorem sval_word_of_above {n : Int} (hlo : 2147483647 < n) (hhi : n < 4294967296) :
    sval (word n) = n - 4294967296 := by
  rw [sval, word, BitVec.toInt_ofInt, Int.bmod_def]
  omega

end Sys2Proof

namespace Sys2Proof.Machine

/-- Both halves of truncation toward zero, linear in the quotient (spec/00_scope.md R11). -/
theorem truncDiv_four_bounds (a : Int) :
    (0 ≤ a → 4 * truncDiv a 4 ≤ a ∧ a ≤ 4 * truncDiv a 4 + 3) ∧
    (a ≤ 0 → 4 * truncDiv a 4 - 3 ≤ a ∧ a ≤ 4 * truncDiv a 4) := by
  constructor <;> intro h
  · rw [truncDiv, Int.tdiv_eq_ediv_of_nonneg h]
    omega
  · rw [truncDiv, ← Int.neg_neg a, Int.neg_tdiv, Int.tdiv_eq_ediv_of_nonneg (by omega)]
    omega

theorem truncDiv_four_eq_zero {a : Int} : truncDiv a 4 = 0 ↔ -3 ≤ a ∧ a ≤ 3 := by
  have hbounds := truncDiv_four_bounds a
  omega

theorem truncDiv_four_eq_of_pos {a k : Int} (hk : 0 < k) :
    truncDiv a 4 = k ↔ 4 * k ≤ a ∧ a ≤ 4 * k + 3 := by
  have hbounds := truncDiv_four_bounds a
  omega

theorem truncDiv_four_eq_of_neg {a k : Int} (hk : k < 0) :
    truncDiv a 4 = k ↔ 4 * k - 3 ≤ a ∧ a ≤ 4 * k := by
  have hbounds := truncDiv_four_bounds a
  omega

/-- The byte addresses that name no cell (R52, R54). -/
theorem cellIndex_truncDiv_four_eq_none {a : Int} :
    cellIndex (truncDiv a 4) = none ↔ a ≤ -4 ∨ 1024 ≤ a := by
  have hbounds := truncDiv_four_bounds a
  rw [cellIndex_eq_none]
  omega

/-- Settles O26: the effective index is the address divided by four, toward zero. -/
theorem effectiveIndexTruncatesTowardZero : Obligations.EffectiveIndexTruncatesTowardZero :=
  fun _ _ _ => ⟨truncDiv_four_eq_zero, fun _ => truncDiv_four_eq_of_pos,
    fun _ => truncDiv_four_eq_of_neg, cellIndex_truncDiv_four_eq_none⟩

/-- Settles O27: a sum outside the signed range leaves it by an offset at most, so that it and the wrapped
sum both lie far outside the array. -/
theorem addressWrapChangesNoAccess : Obligations.AddressWrapChangesNoAccess := by
  intro s rs offset hoffset
  have hbase := sval_range (s.reg rs)
  rw [effectiveIndex, effectiveAddress]
  rcases Int.lt_or_le (sval (s.reg rs) + offset) (-2147483648) with hbelow | hlo
  · rw [sval_word_of_below (by omega) hbelow, cellIndex_truncDiv_four_eq_none.mpr (by omega),
      cellIndex_truncDiv_four_eq_none.mpr (by omega)]
  · rcases Int.lt_or_le 2147483647 (sval (s.reg rs) + offset) with habove | hhi
    · rw [sval_word_of_above habove (by omega), cellIndex_truncDiv_four_eq_none.mpr (by omega),
        cellIndex_truncDiv_four_eq_none.mpr (by omega)]
    · rw [sval_word hlo hhi]

end Sys2Proof.Machine
end

section
/-! PROOFS. A store is seen by the next load and by the next fetch (spec/20_memory.md R57, R60,
spec/70_reset_and_hazards.md R247). -/

namespace Sys2Proof.Machine

theorem State.memRead_storeCell_same {s : State} {k : Int} (v : Word) (hwf : s.mem.wf = true)
    (h : 0 ≤ k ∧ k ≤ 255) : (s.storeCell k.toNat v).memRead k = some v := by
  rw [State.memRead_of_inside _ h, State.storeCell_mem,
    Memory.readCell_writeCell_same v (by omega) hwf]

theorem State.memRead_storeCell_other (s : State) {k q : Int} (v : Word) (hk : 0 ≤ k) (hne : q ≠ k) :
    (s.storeCell k.toNat v).memRead q = s.memRead q := by
  by_cases hq : 0 ≤ q ∧ q ≤ 255
  · rw [State.memRead_of_inside _ hq, State.memRead_of_inside _ hq, State.storeCell_mem,
      Memory.readCell_writeCell_other _ v (by omega)]
  · rw [State.memRead_of_outside _ hq, State.memRead_of_outside _ hq]

/-- A store inside the array leaves the register in the cell (R181). -/
theorem exec_sw_of_inside {s : State} {rs : Fin 32} {offset : Int} (rt : Fin 32)
    (h : 0 ≤ effectiveIndex s rs offset ∧ effectiveIndex s rs offset ≤ 255) :
    exec (.sw rt offset rs) s = .next (((s.storeCell (effectiveIndex s rs offset).toNat
      (s.reg rt)).countType .sw).countMemWrite) := by
  simp only [exec, execSw, State.memWrite_of_inside s _ h]

/-- A load of a cell that reads as `v` leaves `v` in the destination (R180). -/
theorem exec_lw_of_memRead {s : State} {rs : Fin 32} {offset : Int} {v : Word} (rt : Fin 32)
    (h : s.memRead (effectiveIndex s rs offset) = some v) :
    ∃ u, exec (.lw rt offset rs) s = .next u ∧ u.reg rt = v := by
  obtain ⟨hin, rfl⟩ := State.memRead_eq_some.mp h
  exact ⟨_, exec_lw_of_inside rt hin, State.reg_setReg_same s rt _⟩

/-- Settles O28: a store changes no register, so the load names the cell the store wrote. -/
theorem loadAfterStoreReadsTheStoredWord : Obligations.LoadAfterStoreReadsTheStoredWord := by
  intro s rt offset rs hwf hlo hhi
  have hstored := State.memRead_storeCell_same (s.reg rt) hwf ⟨hlo, hhi⟩
  exact ⟨_, exec_sw_of_inside rt ⟨hlo, hhi⟩, hstored,
    fun _ hne => State.memRead_storeCell_other s _ hlo hne, fun q => exec_lw_of_memRead q hstored⟩

/-- A step that fetches `w` executes `w` (R100, R102). -/
theorem step_of_fetch {s : State} {w : Word} (hf : s.fetching) (hw : s.memRead s.pc = some w) :
    step s = finishCycle (execute (decode w) w s.afterFetch) := by
  obtain ⟨hlive, hpc⟩ := hf
  rw [step_of_live hlive, if_pos hpc, cycle_of_inside hw]

@[simp] theorem completeCycle_memRead (s : State) (q : Int) :
    (completeCycle s).memRead q = s.memRead q := by
  rw [State.memRead, State.memRead, completeCycle_mem]

theorem completeCycle_fetching {s : State} (hf : s.fetching) : (completeCycle s).fetching := by
  obtain ⟨hlive, hpc⟩ := hf
  rw [completeCycle_of_not_faulted hlive.not_terminal.1]
  exact ⟨.inr rfl, hpc⟩

/-- The step after a completed cycle executes what the cycle left at `pc`. -/
theorem step_completeCycle_of_fetch {s : State} {w : Word} (hf : s.fetching)
    (hw : s.memRead s.pc = some w) :
    step (completeCycle s) = finishCycle (execute (decode w) w { completeCycle s with
      observeCount := (completeCycle s).observeCount + 1
      pc := s.pc + 1 }) := by
  have hfetched : (completeCycle s).memRead (completeCycle s).pc = some w := by
    rw [completeCycle_memRead, completeCycle_pc, hw]
  rw [step_of_fetch (completeCycle_fetching hf) hfetched, State.afterFetch, completeCycle_pc]
  rfl

/-- Settles O29: the fetch after the store reads the cell the store wrote. -/
theorem storeIsSeenByTheNextFetch : Obligations.StoreIsSeenByTheNextFetch := by
  intro s rt offset rs hwf hfetch hlo hhi hidx
  have hsw := exec_sw_of_inside (s := s) (rs := rs) (offset := offset) rt (hidx ▸ ⟨hlo, hhi⟩)
  rw [hidx] at hsw
  exact ⟨_, hsw, step_completeCycle_of_fetch hfetch
    (State.memRead_storeCell_same (s.reg rt) hwf ⟨hlo, hhi⟩)⟩

end Sys2Proof.Machine
end

section
/-! PROOFS. The decoder and the encoder (spec/30_encoding.md): the fields as slices of the word, the two
halves of the round trip for each format of R71, and what every row of the opcode table shares with the
other rows of its format. -/

namespace Sys2Proof

/-! ### The fields are slices (R73) -/

theorem field_eq_extractLsb (w : Word) (hi lo : Nat) : field w hi lo = (w.extractLsb hi lo).toNat := by
  rw [field, BitVec.extractLsb_toNat, Nat.shiftRight_eq_div_pow]

theorem field5_eq_extractLsb (w : Word) (lo : Nat) :
    (field5 w lo).val = (w.extractLsb (lo + 4) lo).toNat := by
  rw [← field_eq_extractLsb, field5_val, field_def, Nat.add_sub_cancel_left]
  rfl

/-! ### Sign extension (R74) -/

theorem sext16_of_le {v : Nat} (h : v ≤ 32767) : sext16 v = v := if_pos h

theorem sext16_of_ge {v : Nat} (h : 32768 ≤ v) : sext16 v = (v : Int) - 65536 := if_neg (by omega)

/-- An admitted immediate is `sext_16` of the field it is encoded in (R74, R84). -/
theorem sext16_emod_toNat {n : Int} (h : imm16Ok n) : sext16 (n % 65536).toNat = n := by
  rcases Int.lt_or_le n 0 with hneg | hnonneg
  · rw [sext16_of_ge (by omega)]; omega
  · rw [sext16_of_le (by omega)]; omega

/-! ### A word is put together again from its fields (R71, R73) -/

theorem encodeR_fields {w : Word} (h : opcodeField w = 0) :
    encodeR (rdField w) (rsField w) (rtField w) (shamtField w) (functField w) = w := by
  have hfunct : functField w < 64 := by rw [functField_eq]; omega
  rw [opcodeField_eq] at h
  rw [← BitVec.toNat_inj, encodeR_toNat _ _ _ _ hfunct, rdField_val, rsField_val, rtField_val,
    shamtField_val, functField_eq]
  omega

theorem encodeI_fields (w : Word) :
    encodeI (opcodeField w) (rsField w) (rtField w) (sext16 (immField w)) = w := by
  have hw := w.isLt
  have hopcode : opcodeField w < 64 := by rw [opcodeField_eq]; omega
  have himm : immField w < 65536 := by rw [immField_eq]; omega
  rw [← BitVec.toNat_inj, encodeI_toNat _ _ _ hopcode, sext16_emod himm, opcodeField_eq, rsField_val,
    rtField_val, immField_eq]
  omega

theorem encodeJ_fields {w : Word} (h : opcodeField w = 2) : encodeJ (targetField w) = w := by
  rw [opcodeField_eq] at h
  rw [← BitVec.toNat_inj, encodeJ_toNat (targetField_range w), targetField_eq]
  omega

/-! ### The rows of the opcode table, by format (R79) -/

/-- `mk` is the R-type row with function code `funct`, in the decoder and in the encoder. -/
structure RTypeRow (funct : Nat) (mk : RegIndex → RegIndex → RegIndex → Fin 32 → Instr) : Prop where
  funct_lt : funct < 64
  encode_eq : ∀ rd rs rt shamt, encode (mk rd rs rt shamt) = encodeR rd rs rt shamt funct
  decodeFunct_eq : ∀ w, functField w = funct →
    decodeFunct w = .instr (mk (rdField w) (rsField w) (rtField w) (shamtField w))

/-- `mk` is the I-type row with opcode `opcode`, in the decoder and in the encoder. -/
structure ITypeRow (opcode : Nat) (mk : RegIndex → RegIndex → Int → Instr) : Prop where
  opcode_lt : opcode < 64
  encode_eq : ∀ rs rt imm, encode (mk rs rt imm) = encodeI opcode rs rt imm
  decode_eq : ∀ w, opcodeField w = opcode →
    decode w = .instr (mk (rsField w) (rtField w) (sext16 (immField w)))

theorem RTypeRow.add : RTypeRow 32 .add :=
  ⟨by decide, fun _ _ _ _ => rfl, fun _ h => by simp only [decodeFunct, h]⟩

theorem RTypeRow.sub : RTypeRow 34 .sub :=
  ⟨by decide, fun _ _ _ _ => rfl, fun _ h => by simp only [decodeFunct, h]⟩

theorem RTypeRow.and : RTypeRow 36 .and :=
  ⟨by decide, fun _ _ _ _ => rfl, fun _ h => by simp only [decodeFunct, h]⟩

theorem RTypeRow.or : RTypeRow 37 .or :=
  ⟨by decide, fun _ _ _ _ => rfl, fun _ h => by simp only [decodeFunct, h]⟩

theorem RTypeRow.slt : RTypeRow 42 .slt :=
  ⟨by decide, fun _ _ _ _ => rfl, fun _ h => by simp only [decodeFunct, h]⟩

theorem ITypeRow.beq : ITypeRow 4 .beq :=
  ⟨by decide, fun _ _ _ => rfl, fun _ h => by simp only [decode, h]⟩

theorem ITypeRow.addi : ITypeRow 8 (fun rs rt imm => .addi rt rs imm) :=
  ⟨by decide, fun _ _ _ => rfl, fun _ h => by simp only [decode, h]⟩

theorem ITypeRow.lw : ITypeRow 35 (fun rs rt offset => .lw rt offset rs) :=
  ⟨by decide, fun _ _ _ => rfl, fun _ h => by simp only [decode, h]⟩

theorem ITypeRow.sw : ITypeRow 43 (fun rs rt offset => .sw rt offset rs) :=
  ⟨by decide, fun _ _ _ => rfl, fun _ h => by simp only [decode, h]⟩

theorem decode_of_opcode_two {w : Word} (h : opcodeField w = 2) :
    decode w = .instr (.j (targetField w)) := by
  simp only [decode, h]

/-! ### Decoding an encoded instruction (R78, R84) -/

theorem RTypeRow.decode_encode {funct : Nat} {mk : RegIndex → RegIndex → RegIndex → Fin 32 → Instr}
    (row : RTypeRow funct mk) (rd rs rt : RegIndex) (shamt : Fin 32) :
    decode (encode (mk rd rs rt shamt)) = .instr (mk rd rs rt shamt) := by
  obtain ⟨hopcode, hfunct, hrd, hrs, hrt, hshamt⟩ := fields_encodeR rd rs rt shamt row.funct_lt
  rw [row.encode_eq, decode_of_opcode_zero hopcode, row.decodeFunct_eq _ hfunct, hrd, hrs, hrt, hshamt]

theorem ITypeRow.decode_encode {opcode : Nat} {mk : RegIndex → RegIndex → Int → Instr}
    (row : ITypeRow opcode mk) (rs rt : RegIndex) {imm : Int} (h : imm16Ok imm) :
    decode (encode (mk rs rt imm)) = .instr (mk rs rt imm) := by
  obtain ⟨hopcode, hrs, hrt, himm⟩ := fields_encodeI rs rt imm row.opcode_lt
  rw [row.encode_eq, row.decode_eq _ hopcode, hrs, hrt, himm, sext16_emod_toNat h]

theorem decode_encodeJ {target : Nat} (h : target26Ok target) :
    decode (encodeJ target) = .instr (.j target) := by
  obtain ⟨hopcode, htarget⟩ := fields_encodeJ h
  rw [decode_of_opcode_two hopcode, htarget]

/-- Settles O7: each instruction by its row, the immediate and the target within their field. -/
theorem decodeOfEncodeIsIdentity : Obligations.DecodeOfEncodeIsIdentity := by
  intro i hwf
  cases i with
  | add rd rs rt shamt => exact RTypeRow.add.decode_encode rd rs rt shamt
  | sub rd rs rt shamt => exact RTypeRow.sub.decode_encode rd rs rt shamt
  | and rd rs rt shamt => exact RTypeRow.and.decode_encode rd rs rt shamt
  | or rd rs rt shamt => exact RTypeRow.or.decode_encode rd rs rt shamt
  | slt rd rs rt shamt => exact RTypeRow.slt.decode_encode rd rs rt shamt
  | j target => exact decode_encodeJ (of_decide_eq_true hwf)
  | beq rs rt offset => exact ITypeRow.beq.decode_encode rs rt (of_decide_eq_true hwf)
  | addi rt rs imm => exact ITypeRow.addi.decode_encode rs rt (of_decide_eq_true hwf)
  | lw rt offset rs => exact ITypeRow.lw.decode_encode rs rt (of_decide_eq_true hwf)
  | sw rt offset rs => exact ITypeRow.sw.decode_encode rs rt (of_decide_eq_true hwf)

/-! ### Encoding a decoded word (R78, R84) -/

theorem RTypeRow.encode_fields {funct : Nat} {mk : RegIndex → RegIndex → RegIndex → Fin 32 → Instr}
    (row : RTypeRow funct mk) {w : Word} (hopcode : opcodeField w = 0) (hfunct : functField w = funct) :
    encode (mk (rdField w) (rsField w) (rtField w) (shamtField w)) = w := by
  rw [row.encode_eq, ← hfunct, encodeR_fields hopcode]

theorem ITypeRow.encode_fields {opcode : Nat} {mk : RegIndex → RegIndex → Int → Instr}
    (row : ITypeRow opcode mk) {w : Word} (hopcode : opcodeField w = opcode) :
    encode (mk (rsField w) (rtField w) (sext16 (immField w))) = w := by
  rw [row.encode_eq, ← hopcode, encodeI_fields]

theorem encode_of_decodeFunct {w : Word} {i : Instr} (hop : opcodeField w = 0)
    (h : decodeFunct w = .instr i) : encode i = w := by
  rcases decodeFunct_cases w with ⟨hf, e⟩ | ⟨hf, e⟩ | ⟨hf, e⟩ | ⟨hf, e⟩ | ⟨hf, e⟩ | ⟨-, e⟩ <;>
    rw [e] at h <;> cases h
  · exact RTypeRow.add.encode_fields hop hf
  · exact RTypeRow.sub.encode_fields hop hf
  · exact RTypeRow.and.encode_fields hop hf
  · exact RTypeRow.or.encode_fields hop hf
  · exact RTypeRow.slt.encode_fields hop hf

theorem encode_of_decode {w : Word} {i : Instr} (h : decode w = .instr i) : encode i = w := by
  rcases decode_cases w with ⟨hop, e⟩ | ⟨hop, e⟩ | ⟨hop, e⟩ | ⟨hop, e⟩ | ⟨hop, e⟩ | ⟨hop, e⟩ | ⟨-, e⟩ <;>
    rw [e] at h
  · exact encode_of_decodeFunct hop h
  · cases h; exact encodeJ_fields hop
  · cases h; exact ITypeRow.beq.encode_fields hop
  · cases h; exact ITypeRow.addi.encode_fields hop
  · cases h; exact ITypeRow.lw.encode_fields hop
  · cases h; exact ITypeRow.sw.encode_fields hop
  · cases h

/-- Settles O8: the operands of a decoded word are its fields, which make up the whole word. -/
theorem encodeOfDecodeIsIdentity : Obligations.EncodeOfDecodeIsIdentity :=
  fun _ _ h => ⟨decode_wellFormed h, encode_of_decode h⟩

/-- Settles O2: each field is one slice, by the law of its width. -/
theorem fieldsAreBitSlices : Obligations.FieldsAreBitSlices := fun w =>
  ⟨field_eq_extractLsb w 31 26, field5_eq_extractLsb w 21, field5_eq_extractLsb w 16,
    field5_eq_extractLsb w 11, field5_eq_extractLsb w 6, field_eq_extractLsb w 5 0,
    field_eq_extractLsb w 15 0, field_eq_extractLsb w 25 0⟩

/-! ### Every word is recognized or of one of two unrecognized kinds (R80, R81, R83) -/

theorem decodeFunct_ne_unrecognizedOpcode (w : Word) : decodeFunct w ≠ .unrecognizedOpcode := by
  rcases decodeFunct_cases w with ⟨-, e⟩ | ⟨-, e⟩ | ⟨-, e⟩ | ⟨-, e⟩ | ⟨-, e⟩ | ⟨-, e⟩ <;> simp [e]

theorem decodeFunct_eq_unrecognizedFunct_iff (w : Word) :
    decodeFunct w = .unrecognizedFunct ↔ functField w ≠ 32 ∧ functField w ≠ 34 ∧ functField w ≠ 36 ∧
      functField w ≠ 37 ∧ functField w ≠ 42 := by
  rcases decodeFunct_cases w with ⟨hf, e⟩ | ⟨hf, e⟩ | ⟨hf, e⟩ | ⟨hf, e⟩ | ⟨hf, e⟩ | ⟨hf, e⟩ <;>
    simp [e, hf]

theorem exists_decodeFunct_eq_instr_iff (w : Word) :
    (∃ i, decodeFunct w = .instr i) ↔ functField w = 32 ∨ functField w = 34 ∨ functField w = 36 ∨
      functField w = 37 ∨ functField w = 42 := by
  rcases decodeFunct_cases w with ⟨hf, e⟩ | ⟨hf, e⟩ | ⟨hf, e⟩ | ⟨hf, e⟩ | ⟨hf, e⟩ | ⟨hf, e⟩ <;>
    simp [e, hf]

/-- Settles O5: by the decoder's cases, the function code deciding under opcode 0. -/
theorem unrecognizedWordsAreExactlyTheUnlisted : Obligations.UnrecognizedWordsAreExactlyTheUnlisted := by
  intro w
  rcases decode_cases w with ⟨hop, e⟩ | ⟨hop, e⟩ | ⟨hop, e⟩ | ⟨hop, e⟩ | ⟨hop, e⟩ | ⟨hop, e⟩ | ⟨hop, e⟩
  · simp [e, hop, decodeFunct_ne_unrecognizedOpcode, decodeFunct_eq_unrecognizedFunct_iff,
      exists_decodeFunct_eq_instr_iff]
  all_goals simp [e, hop]

/-! ### Match and mask (R79) -/

/-- A word decodes to an R-type row exactly when it has the row's match: its encoding has the match. -/
theorem RTypeRow.match_iff_decode {funct : Nat}
    {mk : RegIndex → RegIndex → RegIndex → Fin 32 → Instr} (row : RTypeRow funct mk) (w : Word) :
    w &&& 0xFC00003F#32 = BitVec.ofNat 32 funct ↔
      decode w = .instr (mk (rdField w) (rsField w) (rtField w) (shamtField w)) := by
  rw [and_functMask_eq_iff w row.funct_lt]
  constructor
  · rintro ⟨hopcode, hfunct⟩
    rw [decode_of_opcode_zero hopcode, row.decodeFunct_eq w hfunct]
  · intro h
    obtain ⟨hopcode, hfunct, -⟩ :=
      fields_encodeR (rdField w) (rsField w) (rtField w) (shamtField w) row.funct_lt
    rw [← row.encode_eq, encode_of_decode h] at hopcode hfunct
    exact ⟨hopcode, hfunct⟩

/-- A word decodes to an I-type row exactly when it has the row's match: its encoding has the match. -/
theorem ITypeRow.match_iff_decode {opcode : Nat} {mk : RegIndex → RegIndex → Int → Instr}
    (row : ITypeRow opcode mk) (w : Word) :
    w &&& 0xFC000000#32 = BitVec.ofNat 32 (opcode * 67108864) ↔
      decode w = .instr (mk (rsField w) (rtField w) (sext16 (immField w))) := by
  rw [and_opcodeMask_eq_iff w row.opcode_lt]
  refine ⟨row.decode_eq w, fun h => ?_⟩
  obtain ⟨hopcode, -⟩ :=
    fields_encodeI (rsField w) (rtField w) (sext16 (immField w)) row.opcode_lt
  rwa [← row.encode_eq, encode_of_decode h] at hopcode

theorem match_iff_decode_j (w : Word) :
    w &&& 0xFC000000#32 = BitVec.ofNat 32 (2 * 67108864) ↔ decode w = .instr (.j (targetField w)) := by
  rw [and_opcodeMask_eq_iff w (by decide)]
  refine ⟨decode_of_opcode_two, fun h => ?_⟩
  obtain ⟨hopcode, -⟩ := fields_encodeJ (targetField_range w)
  have hword : encodeJ (targetField w) = w := encode_of_decode h
  rwa [hword] at hopcode

/-- Settles O6: each row by the law of its format. -/
theorem matchAndMaskSelectTheInstruction : Obligations.MatchAndMaskSelectTheInstruction := fun w =>
  ⟨RTypeRow.add.match_iff_decode w, RTypeRow.sub.match_iff_decode w, RTypeRow.and.match_iff_decode w,
    RTypeRow.or.match_iff_decode w, RTypeRow.slt.match_iff_decode w, match_iff_decode_j w,
    ITypeRow.beq.match_iff_decode w, ITypeRow.addi.match_iff_decode w, ITypeRow.lw.match_iff_decode w,
    ITypeRow.sw.match_iff_decode w⟩

/-- Settles O3: the laws of `sext16`, and the four rows of the I-type format. -/
theorem signExtensionOfSixteenBits : Obligations.SignExtensionOfSixteenBits :=
  ⟨fun _ => sext16_of_le, fun _ h _ => sext16_of_ge h, fun _ h => sext16_range (Nat.lt_succ_of_le h),
    fun _ hlo hhi => sext16_emod_toNat ⟨hlo, hhi⟩, fun w => ⟨ITypeRow.beq.decode_eq w,
      ITypeRow.addi.decode_eq w, ITypeRow.lw.decode_eq w, ITypeRow.sw.decode_eq w⟩⟩

/-- Settles O4: the decoder run on each word. -/
theorem writtenWordsDecode : Obligations.WrittenWordsDecode := by
  unfold Obligations.WrittenWordsDecode
  decide

/-- Settles O9: none of the five meanings reads its `shamt` argument. -/
theorem shamtHasNoEffect : Obligations.ShamtHasNoEffect :=
  fun _ _ _ _ _ _ => ⟨rfl, rfl, rfl, rfl, rfl⟩

end Sys2Proof
end

section
/-! PROOFS. The statistics of one instruction, and the agreement of the counters (spec/40_cycle.md R105 and
R109). -/

namespace Sys2Proof.Machine

/-- `t` has the counters of `s` after the increments of `i`'s row of the table of R105. -/
structure CountsRow (i : Instr) (s t : State) : Prop where
  type : t.instructionTypeCounts = s.instructionTypeCounts.inc i.typeKey
  alu : t.aluOpCounts =
    (i.aluKey s.switches.addiAluKey).elim s.aluOpCounts s.aluOpCounts.inc
  memoryRead : t.memoryReadCount = s.memoryReadCount + if i.isLoad then 1 else 0
  memoryWrite : t.memoryWriteCount = s.memoryWriteCount + if i.isStore then 1 else 0

/-- An instruction counts its row, with no diagnostic and in the run state it found, or raises a fault. -/
theorem ExecEffect.countsRow_or_raiseFault {i : Instr} {s t : State} (h : ExecEffect i s t) :
    (CountsRow i s t ∧ t.runState = s.runState ∧ t.diagLog = s.diagLog ∧
      t.cycleCount = s.cycleCount) ∨
    ∃ c info, t = s.raiseFault c s.currentSlot info := by
  cases h with
  | raised c info hc => exact .inr ⟨c, info, rfl⟩
  | alu rd v ak hd hk hl hs hc =>
    exact .inl ⟨⟨rfl, by rw [hk]; rfl, by rw [hl]; rfl, by rw [hs]; rfl⟩, rfl, rfl, rfl⟩
  | load rt offset rs hi hin => subst hi; exact .inl ⟨⟨rfl, rfl, rfl, rfl⟩, rfl, rfl, rfl⟩
  | store rt offset rs hi hin => subst hi; exact .inl ⟨⟨rfl, rfl, rfl, rfl⟩, rfl, rfl, rfl⟩
  | jump target hi => subst hi; exact .inl ⟨⟨rfl, rfl, rfl, rfl⟩, rfl, rfl, rfl⟩
  | branch rs rt offset p hi hp => subst hi; exact .inl ⟨⟨rfl, rfl, rfl, rfl⟩, rfl, rfl, rfl⟩

/-! ### The sums of R109 -/

/-- The instructions counted that R105 gives an `aluOpCounts` key. -/
def InstructionTypeCounts.aluBearing (c : InstructionTypeCounts) : Nat :=
  c.add + c.sub + c.and + c.or + c.slt + c.addi + c.beq

theorem InstructionTypeCounts.aluBearing_inc (c : InstructionTypeCounts) (i : Instr)
    (mode : Config.AddiAluKey) : (c.inc i.typeKey).aluBearing =
      c.aluBearing + if (i.aluKey mode).isSome then 1 else 0 := by
  cases i with
  | j _ | lw _ _ _ | sw _ _ _ => rfl
  | addi rt rs imm =>
    have hkey : ((Instr.addi rt rs imm).aluKey mode).isSome = true := by cases mode <;> rfl
    simp only [if_pos hkey, InstructionTypeCounts.aluBearing, InstructionTypeCounts.inc, Instr.typeKey]
    omega
  | _ =>
    simp only [InstructionTypeCounts.aluBearing, InstructionTypeCounts.inc, Instr.typeKey,
      Instr.aluKey, Option.isSome_some, if_true]
    omega

theorem InstructionTypeCounts.lw_inc (c : InstructionTypeCounts) (i : Instr) :
    (c.inc i.typeKey).lw = c.lw + if i.isLoad then 1 else 0 := by
  cases i <;> rfl

theorem InstructionTypeCounts.sw_inc (c : InstructionTypeCounts) (i : Instr) :
    (c.inc i.typeKey).sw = c.sw + if i.isStore then 1 else 0 := by
  cases i <;> rfl

theorem CountsRow.aluOpCounts_sum {i : Instr} {s t : State} (h : CountsRow i s t) :
    t.aluOpCounts.sum =
      s.aluOpCounts.sum + if (i.aluKey s.switches.addiAluKey).isSome then 1 else 0 := by
  rw [h.alu]
  cases i.aluKey s.switches.addiAluKey with
  | none => rfl
  | some k => exact AluOpCounts.sum_inc s.aluOpCounts k

/-- A completed cycle of an instruction keeps the agreement. -/
theorem CountsRow.countersAgree {i : Instr} {s t : State} (h : CountsRow i s t)
    (hd : t.diagLog = s.diagLog) (hc : t.cycleCount = s.cycleCount) (hs : s.countersAgree) :
    t.countCycle.countersAgree := by
  obtain ⟨hcycle, (halu : s.aluOpCounts.sum = s.instructionTypeCounts.aluBearing), hread, hwrite⟩ := hs
  refine ⟨?_, ?_, ?_, ?_⟩
  · simp only [State.countCycle_instructionTypeCounts, State.countCycle_diagLog,
      State.countCycle_cycleCount, h.type, InstructionTypeCounts.sum_inc, hd, hc]
    omega
  · change t.aluOpCounts.sum = t.instructionTypeCounts.aluBearing
    rw [h.aluOpCounts_sum, h.type, InstructionTypeCounts.aluBearing_inc _ i s.switches.addiAluKey, halu]
  · change t.memoryReadCount = t.instructionTypeCounts.lw
    rw [h.memoryRead, h.type, InstructionTypeCounts.lw_inc, hread]
  · change t.memoryWriteCount = t.instructionTypeCounts.sw
    rw [h.memoryWrite, h.type, InstructionTypeCounts.sw_inc, hwrite]

/-- So does a completed cycle of an unrecognized word. -/
theorem State.countersAgree.emitDiag {s : State} (h : s.countersAgree) (c : DiagCode) (p : Int)
    (w : Word) : (s.emitDiag c p w).countCycle.countersAgree := by
  obtain ⟨hcycle, hrest⟩ := h
  refine ⟨?_, hrest⟩
  simp only [State.countCycle_instructionTypeCounts, State.emitDiag_instructionTypeCounts,
    State.countCycle_diagLog, State.emitDiag_diagLog, State.countCycle_cycleCount,
    State.emitDiag_cycleCount, List.length_append, List.length_singleton]
  omega

/-- Every execute of a fetched word, with the end of its cycle, keeps the agreement. -/
theorem execute_countersAgree {d : Decoded} {w : Word} {s t : State} (hrun : s.runState ≠ .faulted)
    (hs : s.countersAgree) (h : execute d w s = .next t) : (completeCycle t).countersAgree := by
  rcases execute_next h with ⟨i, -, he⟩ | ⟨-, rfl⟩ | ⟨-, -, rfl⟩ | ⟨-, -, rfl⟩
  · rcases he.countsRow_or_raiseFault with ⟨hrow, hr, hd, hc⟩ | ⟨c, info, rfl⟩
    · rw [completeCycle_of_not_faulted (hr ▸ hrun)]
      exact hrow.countersAgree hd hc hs
    · exact hs
  · rw [completeCycle_of_not_faulted (s := s.emitDiag _ _ _) hrun]
    exact hs.emitDiag _ _ _
  · rw [completeCycle_of_not_faulted (s := s.emitDiag _ _ _) hrun]
    exact hs.emitDiag _ _ _
  · exact hs

/-- Settles O45: a completed cycle counts once in `cycleCount` and once under its instruction's key or as a
diagnostic, and every other step counts nothing. -/
theorem stepKeepsCountersAgreeing : Obligations.StepKeepsCountersAgreeing := by
  intro s t hs h
  cases step_next h with
  | halt _ _ => exact hs
  | fetchFault _ _ _ => exact hs
  | executed w u hl _ _ _ hu =>
    have hrun : s.afterFetch.runState ≠ .faulted := hl.not_terminal.1
    exact execute_countersAgree hrun hs hu

/-! ### The table of R105 -/

theorem CountsRow.instructionTypeCounts_get {i : Instr} {s t : State} (h : CountsRow i s t)
    (k : TypeKey) : t.instructionTypeCounts.get k =
      s.instructionTypeCounts.get k + if k = i.typeKey then 1 else 0 := by
  rw [h.type, InstructionTypeCounts.get_inc]

theorem CountsRow.aluOpCounts_get {i : Instr} {s t : State} (h : CountsRow i s t) (k : AluKey) :
    t.aluOpCounts.get k =
      s.aluOpCounts.get k + if i.aluKey s.switches.addiAluKey = some k then 1 else 0 := by
  rw [h.alu]
  cases i.aluKey s.switches.addiAluKey with
  | none => rfl
  | some q => simp only [Option.elim_some, AluOpCounts.get_inc, Option.some.injEq, eq_comm]

/-- Settles O25: an instruction counts its row and goes on, or raises a fault and counts nothing. -/
theorem statisticsFollowTheTable : Obligations.StatisticsFollowTheTable := by
  intro i s t hs h
  rcases (exec_next h).countsRow_or_raiseFault with ⟨hrow, hr, -, -⟩ | ⟨c, info, rfl⟩
  · have ht : t.safe := by rw [State.safe, hr]; exact hs
    exact ⟨fun _ => ⟨hrow.instructionTypeCounts_get, hrow.aluOpCounts_get, hrow.memoryRead,
      hrow.memoryWrite⟩, fun hf => absurd ht hf⟩
  · exact ⟨fun ht => absurd rfl ht, fun _ => ⟨rfl, rfl, rfl, rfl⟩⟩

end Sys2Proof.Machine
end

section
/-! PROOFS. The frames of `sw`, `j` and `beq`, and the order of reads and writes in one instruction
(spec/40_cycle.md R106 and R107). -/

namespace Sys2Proof

/-- A control transfer can raise none of the faults of R201. -/
theorem Instr.neither_memory_nor_exact_of_isControl {i : Instr} (h : i.isControl = true) :
    i.isLoad = false ∧ i.isStore = false ∧ i.isExact = false := by
  cases i with
  | j _ | beq _ _ _ => exact ⟨rfl, rfl, rfl⟩
  | _ => cases h

end Sys2Proof

namespace Sys2Proof.Machine

/-- Settles O23: a `sw` raises a fault or writes the one cell at its effective index. -/
theorem storeFrame : Obligations.StoreFrame := by
  intro s t rt offset rs h
  cases exec_next h with
  | raised c info hc =>
    exact ⟨fun _ => rfl, fun _ _ => rfl, rfl, rfl, rfl, rfl, rfl, rfl, rfl, rfl, fun _ _ => rfl,
      .inr ⟨rfl, rfl⟩⟩
  | alu rd v ak hd hk hl hs hc => cases hd
  | load rt' offset' rs' hi hin => cases hi
  | store rt' offset' rs' hi hin =>
    cases hi
    exact ⟨fun _ => rfl, fun a ha => Memory.readByte_writeCell_other _ _ _ (by omega), rfl, rfl, rfl,
      rfl, rfl, rfl, rfl, rfl, fun k hne => InstructionTypeCounts.get_inc_other _ hne, .inl ⟨rfl, rfl⟩⟩
  | jump target hi => cases hi
  | branch rs' rt' offset' p hi hp => cases hi

/-- Settles O24: a control transfer writes `pc` and counts under its own keys. -/
theorem controlFrame : Obligations.ControlFrame := by
  intro i s t hi h
  cases exec_next h with
  | raised c info hc =>
    obtain ⟨hl, hs, he⟩ := Instr.neither_memory_nor_exact_of_isControl hi
    simp [hl, hs, he] at hc
  | alu rd v ak hd hk hl hs hc => exact absurd (hc.symm.trans hi) Bool.false_ne_true
  | load rt offset rs hi' hin => subst hi'; cases hi
  | store rt offset rs hi' hin => subst hi'; cases hi
  | jump target hi' =>
    subst hi'
    exact ⟨fun _ => rfl, fun _ => rfl, rfl, rfl, rfl, rfl, rfl, rfl, rfl, rfl, rfl,
      fun k hne => InstructionTypeCounts.get_inc_other _ hne, fun _ _ => rfl⟩
  | branch rs rt offset p hi' hp =>
    subst hi'
    exact ⟨fun _ => rfl, fun _ => rfl, rfl, rfl, rfl, rfl, rfl, rfl, rfl, rfl, rfl,
      fun k hne => InstructionTypeCounts.get_inc_other _ hne,
      fun k hne => AluOpCounts.lookup_inc_other _ (fun e => hne (congrArg some e.symm))⟩

/-- Settles O21: each operand of the result is read from the state before the write. -/
theorem sourcesAreReadBeforeTheWrite : Obligations.SourcesAreReadBeforeTheWrite := by
  intro s r q sh
  refine ⟨fun h => ⟨_, rfl, ?_⟩, fun h => ⟨_, rfl, reg_writeExact_of_fits (.inl h) r _ _⟩,
    fun offset hlo hhi => ⟨_, exec_lw_of_inside r ⟨hlo, hhi⟩, State.reg_setReg_same s r _⟩⟩
  rw [reg_writeExact_of_fits (.inl h), Int.two_mul]

end Sys2Proof.Machine
end

section
/-! PROOFS. The steps of the run loop: the cycle, the halt, the terminal states and the fault
(spec/40_cycle.md R100 to R111, spec/60_exceptions.md R204 to R206). -/

namespace Sys2Proof.Machine

/-! ### Terminal states (R110) -/

theorem step_of_halted {s : State} (h : s.runState = .halted) : step s = .fault .noStepHalted := by
  simp only [step, runLoop, h]

theorem step_of_faulted {s : State} (h : s.runState = .faulted) :
    step s = .fault .noStepFaulted := by
  simp only [step, runLoop, h]

/-- A step that answers no state emits nothing. -/
theorem stepEvents_of_fault {s : State} {r : Fault} (h : step s = .fault r) : stepEvents s = [] := by
  simp only [stepEvents, h]

/-- Settles O34: the run loop looks at the run state first. -/
theorem terminalStatesHaveNoStep : Obligations.TerminalStatesHaveNoStep := fun _ =>
  ⟨fun h => ⟨step_of_halted h, stepEvents_of_fault (step_of_halted h)⟩,
    fun h => ⟨step_of_faulted h, stepEvents_of_fault (step_of_faulted h)⟩⟩

theorem step_ne_refused (s : State) (r : Refusal) : step s ≠ .refused r := by
  have hlive : s.live → step s ≠ .refused r := by
    intro hl
    obtain ⟨t, ht, -⟩ := step_effect hl
    rw [ht]
    exact nofun
  cases hr : s.runState with
  | ready => exact hlive (.inl hr)
  | running => exact hlive (.inr hr)
  | halted => rw [step_of_halted hr]; exact nofun
  | faulted => rw [step_of_faulted hr]; exact nofun

/-- Settles O35: every live state halts, faults at the fetch or executes, and every execute answers. -/
theorem everyLiveStateSteps : Obligations.EveryLiveStateSteps :=
  ⟨fun _ hl => (step_effect hl).imp fun _ h => h.1, step_ne_refused,
    fun i s => (exec_effect i s).imp fun _ h => h.1⟩

/-! ### The halt (R101) -/

/-- Settles O33: the halt step, whose log of diagnostics does not grow. -/
theorem haltLeavesEverythingElse : Obligations.HaltLeavesEverythingElse := by
  intro s hl hpc
  have hstep : step s = .next s.halt := step_of_effect (.halt hl hpc)
  exact ⟨hstep, stepEvents_of_next (ds := []) hstep (List.append_nil _).symm⟩

/-! ### The cycle (R100, R102 to R104) -/

/-- During an execute the slot is the `pc` the fetch read (R24). -/
theorem State.afterFetch_currentSlot (s : State) : s.afterFetch.currentSlot = s.pc :=
  Int.add_sub_cancel s.pc 1

/-- Settles O30: the execute of a decoded instruction is `exec`, and the end of the cycle follows. -/
theorem stepRunsTheDecodedInstruction : Obligations.StepRunsTheDecodedInstruction := by
  intro s t w i hf hw hd h
  have hu : execute (decode w) w s.afterFetch = .next t := by rw [hd]; exact h
  rw [step_of_fetch hf hw, hu]
  by_cases ht : t.runState = .faulted
  · rw [if_pos ht, finishCycle, completeCycle_of_faulted ht]
  · rw [if_neg ht, finishCycle, completeCycle_of_not_faulted ht]
    rfl

/-- Settles O31: a fetch inside the array executes the cell, one outside it faults, and a `pc` below the
program's length is below 256. -/
theorem fetchReadsTheCellOrFaults : Obligations.FetchReadsTheCellOrFaults := by
  intro s hf
  have ⟨hlive, hpc⟩ := hf
  refine ⟨fun hin => ?_, fun hout => ?_, fun hcount => ?_⟩
  · exact step_of_fetch hf (State.memRead_of_inside s hin)
  · exact step_of_effect (.fetchFault hlive hpc (by omega))
  · rw [State.countInRange] at hcount
    omega

/-- A cycle of an unrecognized word that is reported counts itself and the diagnostic. -/
theorem completeCycle_emitDiag_afterFetch {s : State} (hl : s.live) (c : DiagCode) (w : Word) :
    completeCycle (s.afterFetch.emitDiag c s.afterFetch.currentSlot w) = { s with
      pc := s.pc + 1
      cycleCount := s.cycleCount + 1
      runState := .running
      observeCount := s.observeCount + 1
      diagLog := s.diagLog ++ [{ code := c, faultPc := s.pc, word := w }] } := by
  have hrun : (s.afterFetch.emitDiag c s.afterFetch.currentSlot w).runState ≠ .faulted :=
    hl.not_terminal.1
  rw [completeCycle_of_not_faulted hrun, State.afterFetch_currentSlot]
  rfl

/-- Settles O32: the execute of R104 for each kind of word and each mode, and the end of its cycle. -/
theorem unrecognizedWordIsAReportedNoOp : Obligations.UnrecognizedWordIsAReportedNoOp := by
  intro s w hf hw
  have ⟨hlive, _⟩ := hf
  have hmode : s.afterFetch.switches = s.switches := rfl
  rw [step_of_fetch hf hw]
  refine ⟨fun hd => ?_, fun hd hm => ?_, fun hd hm => ?_⟩
  · rw [hd, ← completeCycle_emitDiag_afterFetch hlive]
    rfl
  · simp only [hd, execute, execUnrecognizedFunct, hmode, hm, finishCycle]
    rw [completeCycle_emitDiag_afterFetch hlive]
  · simp only [hd, execute, execUnrecognizedFunct, hmode, hm, finishCycle]
    rw [completeCycle_of_faulted rfl, State.afterFetch_currentSlot]
    rfl

/-! ### A fault (R204) -/

/-- A step into `Faulted` raised `FetchOutOfBounds` at the fetch, or another fault in the execute, and did
nothing else. -/
theorem step_faulted_cases {s t : State} (h : step s = .next t) (ht : t.runState = .faulted) :
    t = s.notifyObserver.raiseFault .fetchOutOfBounds s.pc s.pc ∨
    ∃ c info, c ≠ .fetchOutOfBounds ∧ t = s.afterFetch.raiseFault c s.pc info := by
  cases step_next h with
  | halt _ _ => cases ht
  | fetchFault _ _ _ => exact .inl rfl
  | executed w u hl _ _ _ hu =>
    have hu' : u.runState = .faulted := completeCycle_runState_eq_faulted.mp ht
    obtain ⟨-, ⟨hrun, -⟩ | ⟨c, info, hc, -, -, rfl⟩⟩ := execute_frame hu
    · exact absurd (hrun.symm.trans hu') hl.not_terminal.1
    · rw [completeCycle_of_faulted rfl, State.afterFetch_currentSlot]
      exact .inr ⟨c, info, hc, rfl⟩

/-- A step into `Faulted` emits the `Observe` its cycle begins with and nothing after it (R204). -/
theorem stepEvents_of_faulted {s t : State} (h : step s = .next t) (ht : t.runState = .faulted) :
    stepEvents s = [.observe s.snapshot] := by
  obtain ⟨ds, -, hds, hnone, -⟩ := step_diagLog h
  rw [stepEvents_of_next h hds, hnone ht, ht]
  rfl

/-- Settles O40: both faults write the run state and the record on the state the fetch left them. -/
theorem faultsArePrecise : Obligations.FaultsArePrecise := by
  intro s t h ht
  have hevents := stepEvents_of_faulted h ht
  have hstuck := step_of_faulted ht
  rcases step_faulted_cases h ht with rfl | ⟨c, info, hc, rfl⟩
  · exact ⟨rfl, rfl, rfl, rfl, rfl, rfl, rfl, rfl, rfl, hevents, hstuck, _, rfl, rfl, rfl, rfl⟩
  · refine ⟨rfl, rfl, rfl, rfl, rfl, rfl, rfl, rfl, rfl, hevents, hstuck, _, rfl, ?_⟩
    rw [if_neg hc]
    exact ⟨rfl, rfl⟩

/-! ### The count of `Observe` events -/

/-- Settles O46: every step observes once, and counts a cycle unless it ends the run. -/
theorem stepKeepsObserveCount : Obligations.StepKeepsObserveCount := by
  intro s t hs h
  have hlive := (live_of_step h).not_terminal
  have hbefore : s.observeCount = s.cycleCount := by simpa [State.observesAgree, hlive] using hs
  have hready := noStepReentersReady s t h
  rw [State.observesAgree, step_observeCount h, cycleCountCountsCompletedCycles s t h, hbefore]
  cases hr : t.runState with
  | ready => exact absurd hr hready
  | running => rfl
  | halted => rfl
  | faulted => rfl

/-! ### The branch to itself (R111) -/

theorem decode_branchToItself : decode 0x1000FFFF#32 = .instr (.beq 0 0 (-1)) := by decide

/-- One step of `beq r0, r0, -1`: only the counters move. -/
theorem step_of_branchToItself {s : State} (hf : s.fetching)
    (hw : s.memRead s.pc = some 0x1000FFFF#32) :
    ∃ t, step s = .next t ∧ t.fetching ∧ t.pc = s.pc ∧ t.regs = s.regs ∧ t.mem = s.mem ∧
      t.cycleCount = s.cycleCount + 1 ∧ t.observeCount = s.observeCount + 1 := by
  obtain ⟨hlive, hlt⟩ := hf
  have hexec : exec (.beq 0 0 (-1)) s.afterFetch = .next
      (((s.afterFetch.countType .beq).countAlu .sub).setPc (s.afterFetch.pc + -1)) := if_pos rfl
  have hrun : (((s.afterFetch.countType .beq).countAlu .sub).setPc
      (s.afterFetch.pc + -1)).runState ≠ .faulted := hlive.not_terminal.1
  have hpc : s.pc + 1 + -1 = s.pc := Int.add_neg_cancel_right s.pc 1
  rw [step_of_fetch ⟨hlive, hlt⟩ hw, decode_branchToItself, execute, hexec, finishCycle,
    completeCycle_of_not_faulted hrun]
  exact ⟨_, rfl, ⟨.inr rfl, hpc.symm ▸ hlt⟩, hpc, rfl, rfl, rfl, rfl⟩

/-- A run of one more step goes on from the state the first step answers. -/
theorem run_succ_of_next {s u : State} {n : Nat} (h : step s = .next u) :
    core.run (n + 1) s = core.run n u := by
  have hcore : core.step s = .next u := h
  simp only [Host.Core.run, hcore]

/-- Settles O55: induction over the steps, each of which leaves the branch at `pc` to be fetched again. -/
theorem branchToItselfNeverEnds : Obligations.BranchToItselfNeverEnds := by
  intro s n
  induction n generalizing s with
  | zero => exact fun hf _ => ⟨s, rfl, hf, rfl, rfl, rfl, rfl, rfl⟩
  | succ n ih =>
    intro hf hw
    obtain ⟨u, hstep, hfu, hpc, hregs, hmem, hcycle, hobs⟩ := step_of_branchToItself hf hw
    have hwu : u.memRead u.pc = some 0x1000FFFF#32 := by
      rw [State.memRead, hpc, hmem]
      exact hw
    obtain ⟨t, hrun, hft, hpct, hregst, hmemt, hcyclet, hobst⟩ := ih u hfu hwu
    refine ⟨t, ?_, hft, hpct.trans hpc, hregst.trans hregs, hmemt.trans hmem, by omega, by omega⟩
    exact (run_succ_of_next hstep).trans hrun

end Sys2Proof.Machine
end

section
/-! PROOFS. The R-type ALU instructions: encoding, and the whole next state (spec/41_rtype_alu.md R130 to
R134). -/

namespace Sys2Proof.Machine

/-! ### The two ways a result reaches its register -/

/-- The whole state after an ALU result is written (R105). -/
theorem writeAlu_eq (s : State) (rd : Fin 32) (v : Word) (tk : TypeKey) (ak : AluKey) :
    writeAlu s rd v tk ak = { s with
      regs := s.regs.set rd.val v
      instructionTypeCounts := s.instructionTypeCounts.inc tk
      aluOpCounts := s.aluOpCounts.inc ak } := rfl

/-- The whole state after an exact result that raises no fault is written. -/
theorem writeExact_eq_of_fits {s : State} {n : Int}
    (h : s.switches.overflowMode = .wrap ∨ (-2147483648 ≤ n ∧ n ≤ 2147483647)) (rd : Fin 32)
    (tk : TypeKey) (ak : AluKey) : writeExact s rd n tk ak = { s with
      regs := s.regs.set rd.val (word n)
      instructionTypeCounts := s.instructionTypeCounts.inc tk
      aluOpCounts := s.aluOpCounts.inc ak } := by
  rw [writeExact_of_fits h, writeAlu_eq]

/-- The whole state after `ArithmeticOverflow` is raised (R204). -/
theorem writeExact_eq_of_overflow {s : State} {n : Int} (hmode : s.switches.overflowMode = .fault)
    (hn : ¬(-2147483648 ≤ n ∧ n ≤ 2147483647)) (rd : Fin 32) (tk : TypeKey) (ak : AluKey) :
    writeExact s rd n tk ak = { s with
      runState := .faulted
      faultRecord :=
        some { cause := .arithmeticOverflow, faultPc := s.pc - 1, info := rd.val } } :=
  writeExact_of_overflow (overflowFaults_iff.mpr ⟨hmode, hn⟩) rd tk ak

/-! ### The five instructions: the row's match selects the instruction, then its meaning -/

/-- Settles O10: the exact sum is written when it raises no fault, and is raised otherwise. -/
theorem addWritesSumOrRaisesOverflow : Obligations.AddWritesSumOrRaisesOverflow :=
  ⟨fun w => (RTypeRow.add.match_iff_decode w).mp, fun _ rd _ _ _ =>
    ⟨fun h => congrArg Host.Outcome.next (writeExact_eq_of_fits h rd .add .add),
      fun hmode hn => congrArg Host.Outcome.next (writeExact_eq_of_overflow hmode hn rd .add .add)⟩⟩

/-- Settles O11: the exact difference is written when it raises no fault, and is raised otherwise. -/
theorem subWritesDifferenceOrRaisesOverflow : Obligations.SubWritesDifferenceOrRaisesOverflow :=
  ⟨fun w => (RTypeRow.sub.match_iff_decode w).mp, fun _ rd _ _ _ =>
    ⟨fun h => congrArg Host.Outcome.next (writeExact_eq_of_fits h rd .sub .sub),
      fun hmode hn => congrArg Host.Outcome.next (writeExact_eq_of_overflow hmode hn rd .sub .sub)⟩⟩

/-- Settles O12: the conjunction is written in every state. -/
theorem andWritesBitwiseConjunction : Obligations.AndWritesBitwiseConjunction :=
  ⟨fun w => (RTypeRow.and.match_iff_decode w).mp, fun s rd _ _ _ =>
    congrArg Host.Outcome.next (writeAlu_eq s rd _ .and .and)⟩

/-- Settles O13: the disjunction is written in every state. -/
theorem orWritesBitwiseDisjunction : Obligations.OrWritesBitwiseDisjunction :=
  ⟨fun w => (RTypeRow.or.match_iff_decode w).mp, fun s rd _ _ _ =>
    congrArg Host.Outcome.next (writeAlu_eq s rd _ .or .or)⟩

/-- Settles O14: the comparison of the signed views is written in every state. -/
theorem sltWritesSignedComparison : Obligations.SltWritesSignedComparison := by
  refine ⟨fun w => (RTypeRow.slt.match_iff_decode w).mp, fun s rd rs rt _ => ?_⟩
  rw [← sltResult_eq]
  exact congrArg Host.Outcome.next (writeAlu_eq s rd _ .slt .slt)

end Sys2Proof.Machine
end

section
/-! PROOFS. The control transfers: encoding, and the whole next state (spec/42_control.md R150 and R151). -/

namespace Sys2Proof

/-! ### The operand fields as slices of the word (R72, R74) -/

/-- `sext_16` of the immediate field is the signed view of the low 16 bits. -/
theorem sext16_immField (w : Word) : sext16 (immField w) = (w.extractLsb 15 0).toInt := by
  have himm : immField w = (w.extractLsb 15 0).toNat := field_eq_extractLsb w 15 0
  rw [BitVec.toInt_eq_toNat_cond, ← himm]
  split
  · exact sext16_of_le (by omega)
  · exact sext16_of_ge (by omega)

/-- A word with an I-type row's match decodes to the row's instruction, its immediate the signed low 16
bits (R79). -/
theorem ITypeRow.decode_of_match {opcode : Nat} {mk : RegIndex → RegIndex → Int → Instr}
    (row : ITypeRow opcode mk) {w : Word}
    (h : w &&& 0xFC000000#32 = BitVec.ofNat 32 (opcode * 67108864)) :
    decode w = .instr (mk (rsField w) (rtField w) (w.extractLsb 15 0).toInt) := by
  rw [← sext16_immField]
  exact (row.match_iff_decode w).mp h

/-- A word with `j`'s match decodes to `j` of its low 26 bits, unsigned (R72, R79). -/
theorem decode_j_of_match {w : Word} (h : w &&& 0xFC000000#32 = 0x08000000#32) :
    decode w = .instr (.j (w.extractLsb 25 0).toNat) := by
  rw [← field_eq_extractLsb]
  exact (match_iff_decode_j w).mp h

namespace Machine

/-! ### The whole next state -/

/-- `beq` with equal registers: the offset is added to `pc` (R151). -/
theorem exec_beq_of_eq {s : State} {rs rt : Fin 32} (h : s.reg rs = s.reg rt) (offset : Int) :
    exec (.beq rs rt offset) s =
      .next (((s.countType .beq).countAlu .sub).setPc (s.pc + offset)) := if_pos h

/-- `beq` with different registers: only the counters move (R151). -/
theorem exec_beq_of_ne {s : State} {rs rt : Fin 32} (h : s.reg rs ≠ s.reg rt) (offset : Int) :
    exec (.beq rs rt offset) s = .next ((s.countType .beq).countAlu .sub) := if_neg h

/-- Settles O15: the row's match selects `j`, and its meaning is one `setPc` and one count. -/
theorem jumpSetsPcToTarget : Obligations.JumpSetsPcToTarget :=
  ⟨fun _ => decode_j_of_match, fun _ _ => rfl⟩

/-- Settles O16: the row's match selects `beq`, and the comparison of the registers decides `pc`. -/
theorem branchAddsOffsetWhenEqual : Obligations.BranchAddsOffsetWhenEqual := by
  refine ⟨fun _ => ITypeRow.beq.decode_of_match, fun s rs rt offset => ?_⟩
  by_cases heq : s.reg rs = s.reg rt
  · rw [exec_beq_of_eq heq, if_pos heq]; rfl
  · rw [exec_beq_of_ne heq, if_neg heq]; rfl

end Machine

end Sys2Proof
end

section
/-! PROOFS. `addi`: encoding, and the whole next state under both overflow modes and both `ADDI_ALU_KEY`s
(spec/43_addi.md R170). -/

namespace Sys2Proof.Machine

/-! ### The key that `addi` counts under (R29) -/

theorem addiKey_of_addi {s : State} (h : s.switches.addiAluKey = .addi) : addiKey s = .addi := by
  rw [addiKey, h]

theorem addiKey_of_add {s : State} (h : s.switches.addiAluKey = .add) : addiKey s = .add := by
  rw [addiKey, h]

/-! ### The whole next state -/

/-- Settles O17: the row's match selects `addi`; the exact sum is written, and counted under the key of
`ADDI_ALU_KEY`, when it raises no fault, and is raised otherwise. -/
theorem addiWritesSumOrRaisesOverflow : Obligations.AddiWritesSumOrRaisesOverflow := by
  refine ⟨fun _ => ITypeRow.addi.decode_of_match, fun s rt rs imm => ⟨fun h => ?_, fun hmode hn =>
    congrArg Host.Outcome.next (writeExact_eq_of_overflow hmode hn rt .addi (addiKey s))⟩⟩
  refine congrArg Host.Outcome.next ((writeExact_eq_of_fits h rt .addi (addiKey s)).trans ?_)
  cases hkey : s.switches.addiAluKey with
  | addi => rw [addiKey_of_addi hkey]; rfl
  | add => rw [addiKey_of_add hkey]; rfl

end Sys2Proof.Machine
end

section
/-! PROOFS. `lw` and `sw`: encoding, and the whole next state inside and outside the array
(spec/44_load_store.md R180 and R181). -/

namespace Sys2Proof.Machine

/-! ### Outside the array: the fault, raised before any write (R204) -/

/-- A load outside the array raises `LoadOutOfBounds` with its index (R180). -/
theorem exec_lw_of_outside {s : State} {rs : Fin 32} {offset : Int} (rt : Fin 32)
    (h : ¬(0 ≤ effectiveIndex s rs offset ∧ effectiveIndex s rs offset ≤ 255)) :
    exec (.lw rt offset rs) s =
      .next (s.raiseFault .loadOutOfBounds s.currentSlot (effectiveIndex s rs offset)) := by
  simp only [exec, execLw, State.memRead_of_outside s h]

/-- A store outside the array raises `StoreOutOfBounds` with its index (R181). -/
theorem exec_sw_of_outside {s : State} {rs : Fin 32} {offset : Int} (rt : Fin 32)
    (h : ¬(0 ≤ effectiveIndex s rs offset ∧ effectiveIndex s rs offset ≤ 255)) :
    exec (.sw rt offset rs) s =
      .next (s.raiseFault .storeOutOfBounds s.currentSlot (effectiveIndex s rs offset)) := by
  simp only [exec, execSw, State.memWrite_of_outside s _ h]

/-! ### The row's match selects the instruction, and its index decides between the cell and the fault -/

/-- Settles O18: the statement's index is the effective index, and its two clauses are the two answers of
the memory read. -/
theorem loadReadsCellOrFaults : Obligations.LoadReadsCellOrFaults :=
  ⟨fun _ => ITypeRow.lw.decode_of_match, fun _ rt _ _ =>
    ⟨fun hin => exec_lw_of_inside rt hin, fun hout => exec_lw_of_outside rt hout⟩⟩

/-- Settles O19: the statement's index is the effective index, and its two clauses are the two answers of
the memory write. -/
theorem storeWritesCellOrFaults : Obligations.StoreWritesCellOrFaults :=
  ⟨fun _ => ITypeRow.sw.decode_of_match, fun _ rt _ _ =>
    ⟨fun hin => exec_sw_of_inside rt hin, fun hout => exec_sw_of_outside rt hout⟩⟩

end Sys2Proof.Machine
end

section
/-! PROOFS. Which fault causes a step can raise, and which inputs the loader refuses (spec/60_exceptions.md
R201 and R202). -/

namespace Sys2Proof.Machine

/-! ### The causes (R201) -/

/-- The two causes above code 3 are the two that a switch admits. -/
theorem FaultCause.number_le_three {c : FaultCause} (ho : c ≠ .arithmeticOverflow)
    (hf : c ≠ .unrecognizedFunctFault) : c.number ≤ 3 := by
  cases c with
  | arithmeticOverflow => exact absurd rfl ho
  | unrecognizedFunctFault => exact absurd rfl hf
  | _ => decide

/-- A step into `Faulted` records a cause that the switches admit. -/
theorem step_fault_cause_admitted {s t : State} (h : step s = .next t) (ht : t.runState = .faulted) :
    ∃ r, t.faultRecord = some r ∧
      (r.cause = .arithmeticOverflow → s.switches.overflowMode = .fault) ∧
      (r.cause = .unrecognizedFunctFault → s.switches.unknownFunctMode = .fault) := by
  cases step_next h with
  | halt _ _ => cases ht
  | fetchFault _ _ _ => exact ⟨_, rfl, nofun, nofun⟩
  | executed w u hl _ _ _ hu =>
    have hu' : u.runState = .faulted := completeCycle_runState_eq_faulted.mp ht
    obtain ⟨-, ⟨hrun, -⟩ | ⟨c, info, -, hover, hfunct, rfl⟩⟩ := execute_frame hu
    · exact absurd (hrun.symm.trans hu') hl.not_terminal.1
    · exact ⟨_, completeCycle_faultRecord _, hover, hfunct⟩

/-- Only a load, a store and an instruction with an exact result can raise a fault. -/
theorem exec_safe {i : Instr} {s t : State} (hload : i.isLoad = false) (hstore : i.isStore = false)
    (hexact : i.isExact = false) (hs : s.safe) (h : exec i s = .next t) : t.safe := by
  cases exec_next h with
  | raised c info hc => simp [hload, hstore, hexact] at hc
  | _ => exact hs

/-- Settles O41: the record's cause is one its switch admits, and at the default switches neither switch
admits its cause; the five forms are neither loads, nor stores, nor exact. -/
theorem defaultSwitchesAllowThreeCauses : Obligations.DefaultSwitchesAllowThreeCauses := by
  refine ⟨fun s t h ht => ?_, fun s a b c sh n k t hs h => ?_⟩
  · obtain ⟨r, hr, hover, hfunct⟩ := step_fault_cause_admitted h ht
    refine ⟨r, hr, hover, hfunct, fun hdefault => ?_⟩
    rw [hdefault] at hover hfunct
    exact FaultCause.number_le_three (fun e => nomatch hover e) (fun e => nomatch hfunct e)
  · rcases h with h | h | h | h | h <;> exact exec_safe rfl rfl rfl hs h

/-! ### The refused launches (R202) -/

/-- The loader reads the four bytes of a non-zero word as that word, and refuses it when the cells are full. -/
theorem loadWords_word {w : Word} (hw : w ≠ 0#32) (rest : List Byte) (n : Nat) (m : Memory) :
    loadWords (wordByte w 0 :: wordByte w 1 :: wordByte w 2 :: wordByte w 3 :: rest) n m =
      if n = 256 then .error .malformedInput else loadWords rest (n + 1) (m.writeCell n w) := by
  rw [loadWords, joinBytes_wordByte, if_neg hw]

/-- A group of 1 to 3 bytes at the end of the input is refused. -/
theorem loadWords_partial_word {bytes : List Byte} (h : 1 ≤ bytes.length ∧ bytes.length ≤ 3) (n : Nat)
    (m : Memory) : loadWords bytes n m = .error .malformedInput := by
  match bytes, h with
  | [_], _ => rfl
  | [_, _], _ => rfl
  | [_, _, _], _ => rfl

/-- Induction over the words: the cells are full at one of them, or the loader comes to the partial word. -/
theorem loadWords_refuses {ws : List Word} {tail : List Byte} {n : Nat} (m : Memory) (hn : n ≤ 256)
    (hws : ∀ w ∈ ws, w ≠ 0#32)
    (h : 1 ≤ tail.length ∧ tail.length ≤ 3 ∨ 257 ≤ n + ws.length) :
    loadWords (ws.flatMap (fun w => [wordByte w 0, wordByte w 1, wordByte w 2, wordByte w 3]) ++ tail)
      n m = .error .malformedInput := by
  induction ws generalizing n m with
  | nil =>
    have htail : 1 ≤ tail.length ∧ tail.length ≤ 3 := h.resolve_right (Nat.not_le_of_lt (Nat.lt_succ_of_le hn))
    exact loadWords_partial_word htail n m
  | cons w ws ih =>
    obtain ⟨hw, hrest⟩ := List.forall_mem_cons.mp hws
    refine (loadWords_word hw _ n m).trans ?_
    by_cases hfull : n = 256
    · exact if_pos hfull
    · rw [if_neg hfull]
      rw [List.length_cons] at h
      exact ih _ (by omega) hrest (by omega)

/-- A launch whose load is refused is refused with the same reason. -/
theorem launch_of_refused {sw : Config.Switches} {fill : InitFill} {bytes : List Byte} {e : LaunchRefusal}
    (h : loadWords bytes 0 fill.memory = .error e) : launch sw fill bytes = .error e := by
  rw [launch, h]

/-- Settles O52: the refusal of the loader's loop from cell 0. -/
theorem loaderRefusesMalformedInput : Obligations.LoaderRefusesMalformedInput := by
  intro sw fill ws tail hws h
  refine launch_of_refused (loadWords_refuses _ (Nat.zero_le 256) hws ?_)
  rw [Nat.zero_add]
  exact h.imp_left And.right

end Sys2Proof.Machine
end

section
/-! PROOFS. What the loader and the launch leave, and the state of the empty launch
(spec/70_reset_and_hazards.md R240 to R242). -/

namespace Sys2Proof.Machine

/-! ### The loaded program (R240) -/

/-- A cell of the array is what `memRead` answers at its index. -/
theorem State.memRead_natCast (s : State) {k : Nat} (h : k < 256) :
    s.memRead k = some (s.mem.readCell k) :=
  s.memRead_of_inside (by omega)

/-- The loader stops at the end of input and at the zero word, whatever follows it. -/
theorem loadWords_end {tail : List Byte} (h : tail = [] ∨ ∃ rest, tail = 0 :: 0 :: 0 :: 0 :: rest)
    (n : Nat) (m : Memory) : loadWords tail n m = .ok (m, n) := by
  rcases h with rfl | ⟨rest, rfl⟩
  · rfl
  · exact if_pos (by decide)

/-- Induction over the words: the loader writes them into consecutive cells from `n` and counts them. -/
theorem loadWords_loads {ws : List Word} {tail : List Byte} {n : Nat} (m : Memory)
    (hws : ∀ w ∈ ws, w ≠ 0#32) (hn : n + ws.length ≤ 256)
    (htail : tail = [] ∨ ∃ rest, tail = 0 :: 0 :: 0 :: 0 :: rest) :
    loadWords (ws.flatMap (fun w => [wordByte w 0, wordByte w 1, wordByte w 2, wordByte w 3]) ++ tail)
      n m = .ok (m.writeCells n ws, n + ws.length) := by
  induction ws generalizing n m with
  | nil => exact loadWords_end htail n m
  | cons w ws ih =>
    obtain ⟨hw, hrest⟩ := List.forall_mem_cons.mp hws
    have hlen : n + (w :: ws).length = n + 1 + ws.length := by rw [List.length_cons]; omega
    rw [hlen] at hn ⊢
    refine (loadWords_word hw _ n m).trans ?_
    rw [if_neg (by omega : n ≠ 256)]
    exact ih _ hrest hn

/-- A launch whose load succeeds leaves the loaded memory and the count of its words. -/
theorem launch_of_loaded (sw : Config.Switches) {fill : InitFill} {bytes : List Byte} {m : Memory}
    {n : Nat} (h : loadWords bytes 0 fill.memory = .ok (m, n)) :
    ∃ s, launch sw fill bytes = .ok s ∧ s.mem = m ∧ s.instructionCount = n := by
  rw [launch, h]
  exact ⟨_, rfl, rfl, rfl⟩

/-- Before the loader writes, the cells hold the fill's contents (R241). -/
theorem InitFill.readCell_memory_arbitrary (regs : Vector Word 32) (cells : Vector Word 256) {k : Nat}
    (h : k < 256) : (InitFill.arbitrary regs cells).memory.readCell k = cells[k] := by
  have hlen : cells.toList.length = 256 := cells.length_toList
  obtain ⟨inside, -⟩ :=
    Memory.readCell_writeCells cells.toList (m := []) (k := 0) (by omega) rfl
  have hk := inside k (by omega)
  rwa [Nat.zero_add, Vector.getElem_toList] at hk

/-- Settles O51: the loader's loop writes the words from cell 0 over the fill's memory; the words' cells
read as the words, the cells beyond as the fill. -/
theorem loaderPlacesTheProgram : Obligations.LoaderPlacesTheProgram := by
  intro sw fill ws tail hws hlen htail
  have hfit : 0 + ws.length ≤ 256 := (Nat.zero_add _).symm ▸ hlen
  obtain ⟨s, hlaunch, hmem, hcount⟩ :=
    launch_of_loaded sw (loadWords_loads fill.memory hws hfit htail)
  obtain ⟨inside, outside⟩ := Memory.readCell_writeCells ws hfit fill.wf_memory
  rw [Nat.zero_add] at hcount
  have hbeyond : ∀ k : Nat, ws.length ≤ k → k < 256 → s.memRead k = some (fill.memory.readCell k) :=
    fun k hlo hhi => by
      rw [s.memRead_natCast hhi, hmem, outside k (.inr ((Nat.zero_add _).symm ▸ hlo))]
  refine ⟨s, hlaunch, hcount, fun k hk => ?_, fun hfill k hlo hhi => ?_,
    fun regs cells hfill k hhi hlo => ?_⟩
  · have hword := inside k hk
    rw [Nat.zero_add] at hword
    rw [s.memRead_natCast (hk.trans_le hlen), hmem, hword]
  · rw [hbeyond k hlo hhi, hfill]
    exact congrArg some (Memory.readCell_nil k)
  · rw [hbeyond k hlo hhi, hfill, InitFill.readCell_memory_arbitrary regs cells hhi]

/-! ### The reset state (R241, R242) -/

@[simp] theorem InstructionTypeCounts.get_zero (k : TypeKey) : InstructionTypeCounts.zero.get k = 0 := by
  cases k <;> rfl

/-- Under `INIT_FILL = zero` every register starts at 0. -/
theorem InitFill.registers_zero_getElem (r : Fin 32) : InitFill.zero.registers[r.val] = 0#32 :=
  Vector.getElem_replicate r.isLt

/-- Settles O53: a launch sets the registers, memory, the count of words, the switches and the key set,
and leaves every other field at the reset's value. -/
theorem launchLeavesTheResetState : Obligations.LaunchLeavesTheResetState := by
  intro sw fill bytes s h
  have hkeys := launch_aluOpCounts_lookup h
  obtain ⟨r, -, rfl⟩ := launch_ok h
  refine ⟨rfl, rfl, hkeys, InstructionTypeCounts.get_zero, rfl, rfl, rfl, rfl, rfl, rfl, rfl, ?_, ?_⟩
  · rintro rfl
    exact InitFill.registers_zero_getElem
  · rintro regs cells rfl
    rfl

/-- The launch of the empty input at the default switches (log 4). -/
theorem launch_empty_eq_reset : launch Config.Switches.default .zero [] = .ok State.reset := rfl

/-- Settles O54: `State.reset` is a launch's state, so O53 gives every field but memory, and no cell of its
memory is written. -/
theorem resetStateIsTheEmptyLaunch : Obligations.ResetStateIsTheEmptyLaunch := by
  obtain ⟨hpc, hcycle, hkeys, htypes, hread, hwrite, hrun, hrec, -, hobs, hdiag, hregs, -⟩ :=
    launchLeavesTheResetState _ _ _ _ launch_empty_eq_reset
  have hcells : ∀ k : Fin 256, State.reset.memRead (k.val : Int) = some 0#32 := fun k =>
    (State.reset.memRead_natCast k.isLt).trans (congrArg some (Memory.readCell_nil k.val))
  have hall : ∀ k, k ∈ aluKeySet Config.Switches.default.addiAluKey := fun k => by
    cases k <;> decide
  exact ⟨launch_empty_eq_reset, hregs rfl, hcells, rfl, hpc, hcycle,
    fun k => (hkeys k).trans (if_pos (hall k)), htypes, hread, hwrite, hrun, hrec, hobs, hdiag⟩

/-- Settles O48: the reset state is a launch's state, and every launch meets the invariants. -/
theorem resetMeetsTheInvariants : Obligations.ResetMeetsTheInvariants :=
  launchMeetsTheInvariants _ _ _ _ launch_empty_eq_reset

end Sys2Proof.Machine
end
